-- ==== Sys2Proof/Word.lean ====
section
/-! DEFINITION. The words of the bit-plane unit: Sample, operation word, its fields, result bus, error code. -/

namespace Sys2Proof

/-- A Sample: 8 bits, bit 0 least significant, unsigned (00_scope.md R7, R11). -/
abbrev Sample := BitVec 8

/-- The operation word `OPW[21:0] = {OP, P, B, A}` (30_encoding.md R60). -/
abbrev OpWord := BitVec 22

/-- The `OP` field, 2 bits (30_encoding.md R61). -/
abbrev OpField := BitVec 2

/-- The `P` field, 4 bits, a plain unsigned number (30_encoding.md R62). -/
abbrev PField := BitVec 4

/-- The result bus `R[63:0]` (30_encoding.md R70). -/
abbrev Bus := BitVec 64

/-- The error code `ERR[1:0]` (60_exceptions.md R200). -/
abbrev ErrCode := BitVec 2

end Sys2Proof
end

