-- ==== Sys2Proof/Syntax.lean ====
section
/-! DEFINITION. What the host can ask of the unit: Images, the seven operations (one constructor per row of
spec/opcode_table.json), and the request that carries an operation to the unit. -/

namespace Sys2Proof

/-- The shape triple `(rows, cols, ch)` of an Image; any naturals, zero allowed (00_scope.md R8, R9;
92_eei_decisions.md D23). -/
structure Shape where
  rows : Nat
  cols : Nat
  ch : Nat
deriving DecidableEq, Repr

/-- The number of positions of a shape (00_scope.md R9). -/
def Shape.size (sh : Shape) : Nat := sh.rows * sh.cols * sh.ch

/-- An Image: a shape together with exactly `rows * cols * ch` Samples (00_scope.md R9), in flat order, channel
fastest (20_memory.md R43). An Image handed to the unit is always complete (60_exceptions.md R204), so the count is
part of the data. -/
structure Image where
  shape : Shape
  samples : List Sample
  complete : samples.length = shape.size
deriving DecidableEq, Repr

/-- A legal bit width: `1 <= n <= 8` (00_scope.md R10). The datapath formulas take one of these, so they assign no
value to any other `n` (60_exceptions.md R201). -/
abbrev BitWidth := { n : Nat // 1 ≤ n ∧ n ≤ 8 }

/-- A legal bit index: 0 (least significant) to 7 (00_scope.md R11). -/
abbrev BitIndex := Fin 8

/-- The complete operation set: the four sample operations (30_encoding.md R61) and the three frame macro-operations
(R74); there is no other (R77). A sample operation carries its `P` field as it stands in the word, legal or not: the
operation itself checks it (40_bitplaneshift.md R101 to R103). A frame macro-operation takes its Images by value
(20_memory.md R42) and `n` as an argument, an unsigned number (00_scope.md section 5). -/
inductive Instr where
  /-- PROMOTE `v, n` (R101). -/
  | promote (v : Sample) (n : PField)
  /-- ISOLATE `v, i` (R102). -/
  | isolate (v : Sample) (i : PField)
  /-- TRANSPLANT `dst, src, n` (R103). -/
  | transplant (dst src : Sample) (n : PField)
  /-- DECOMPOSE `v` (R150). -/
  | decompose (v : Sample)
  /-- EXTRACT `source, n` (R140). -/
  | extract (source : Image) (n : Nat)
  /-- EMBED `stack, needle, n` (R130). -/
  | embed (stack needle : Image) (n : Nat)
  /-- BPDECOMPOSE `source` (R155). -/
  | bpdecompose (source : Image)
deriving DecidableEq, Repr

/-- One request of the host: an operation word on the ports, or a frame macro-operation as a transaction, which has no
operation word (10_state.md R20; 30_encoding.md R74). -/
inductive Request where
  | word (w : OpWord)
  | extract (source : Image) (n : Nat)
  | embed (stack needle : Image) (n : Nat)
  | bpdecompose (source : Image)
deriving DecidableEq, Repr

end Sys2Proof
end

