-- ==== Sys2Proof/Decode.lean ====
section
/-! DEFINITION. The decoder of the operation word (30_encoding.md R60 to R69), total; after it the encoder (R60, R73,
R75); and `decodeTableWord`. Every one of the `2^22` words selects an operation (R67); whether its `P` is legal is
checked by the operation it selects, before it computes anything (R66, R69). -/

namespace Sys2Proof

/-- `OP = OPW[21:20]` (30_encoding.md R60). -/
def opField (w : OpWord) : OpField := w.extractLsb' 20 2

/-- `P = OPW[19:16]` (30_encoding.md R60). -/
def pField (w : OpWord) : PField := w.extractLsb' 16 4

/-- `B = OPW[15:8]` (30_encoding.md R60). -/
def bField (w : OpWord) : Sample := w.extractLsb' 8 8

/-- `A = OPW[7:0]` (30_encoding.md R60). -/
def aField (w : OpWord) : Sample := w.extractLsb' 0 8

/-- The operation map (30_encoding.md R61): which operation a word asks for, and with which operands. Fields the
operation does not use are dropped (R65). -/
def decodeWord (w : OpWord) : Instr :=
  if opField w = 0b00#2 then .promote (aField w) (pField w)
  else if opField w = 0b01#2 then .isolate (aField w) (pField w)
  else if opField w = 0b10#2 then .transplant (aField w) (bField w) (pField w)
  else .decompose (aField w)

/-- The operation a request asks for: a word is decoded, a transaction names its operation (30_encoding.md R74). -/
def decode (q : Request) : Instr :=
  match q with
  | .word w => decodeWord w
  | .extract source n => .extract source n
  | .embed stack needle n => .embed stack needle n
  | .bpdecompose source => .bpdecompose source

/-- Why a number is no operation word. -/
inductive DecodeError where
  /-- It has a bit above bit 21: an operation word is 22 bits wide and there is no other length (30_encoding.md R60,
  R68). Raised by `numberWord`. Safe: no such word can be presented on the ports. -/
  | notAnOperationWord (w : Nat)
deriving DecidableEq, Repr

/-- A number read as an operation word, or the reason it is none (30_encoding.md R60, R68). -/
def numberWord (w : Nat) : Except DecodeError OpWord :=
  if w < 2 ^ 22 then .ok (BitVec.ofNat 22 w) else .error (.notAnOperationWord w)

/-- Decoding any number whatever: an operation, or a rejection by name. -/
def decodeNumber (w : Nat) : Except DecodeError Instr :=
  match numberWord w with
  | .ok opw => .ok (decodeWord opw)
  | .error e => .error e

/-- The instruction the decoder reads from an opcode-table word of `nbits` bits. -/
def decodeTableWord (nbits w : Nat) : Option Instr :=
  match decodeNumber (w % 2 ^ nbits) with
  | .ok i => some i
  | .error _ => none

/-- `OPW = {OP, P, B, A}` (30_encoding.md R60). -/
def packWord (op : OpField) (p : PField) (b a : Sample) : OpWord := op ++ p ++ b ++ a

/-- The encoder: the request for an instruction. A sample operation's is its canonical word, zero in every ignored
field (30_encoding.md R73, R75); a frame macro-operation has no word and is a transaction (R74). -/
def encode (i : Instr) : Request :=
  match i with
  | .promote v n => .word (packWord 0b00#2 n 0#8 v)
  | .isolate v i => .word (packWord 0b01#2 i 0#8 v)
  | .transplant dst src n => .word (packWord 0b10#2 n src dst)
  | .decompose v => .word (packWord 0b11#2 0#4 0#8 v)
  | .extract source n => .extract source n
  | .embed stack needle n => .embed stack needle n
  | .bpdecompose source => .bpdecompose source

end Sys2Proof
end

