-- ==== Sys2Proof/Machine/State.lean ====
section
/-! DEFINITION. The responses of the unit, the reasons a step can stop, and the state. The unit itself holds NO state
(10_state.md R21 to R27: its state type is the one-point type); State is the host's side of the interface, which gives
`step` its request and records its responses. -/

namespace Sys2Proof.Machine

/-- The unit's errors with the value `raise` names (60_exceptions.md R200). They are answers to a request, not stops: the
unit goes on with the next request (R207). -/
inductive Err where
  /-- `n` outside 1 to 8; records the offending `n` (R201). -/
  | invalidBitWidth (n : Nat)
  /-- `i` outside 0 to 7; records the offending `i` (R202). -/
  | invalidBitIndex (i : Nat)
  /-- EMBED with unequal shapes; records the two shape triples (R203). -/
  | shapeMismatch (stack needle : Shape)
deriving DecidableEq, Repr

/-- One response (30_encoding.md R70; 20_memory.md R42). An error response has no result of any kind: the value of `R`
is then unspecified and must not be read (93_implementation_defined.md U1). -/
inductive Response where
  /-- `ERR = 0` with the result bus of a sample operation (R71, R72). -/
  | result (r : Bus)
  /-- `ERR = 0` with the one output Image of EXTRACT or EMBED. -/
  | image (out : Image)
  /-- `ERR = 0` with the eight output Images of BPDECOMPOSE, output `i` for bit `i` (20_memory.md R53). -/
  | planes (outs : Vector Image 8)
  /-- `ERR` the code of `e`, and no result (60_exceptions.md R206). -/
  | error (e : Err)
deriving DecidableEq, Repr

/-- The reasons the machine stops with a fault: NONE. Every request is answered, with a result or with one error
response; "There is no third outcome" (60_exceptions.md R214). -/
inductive Fault where
deriving DecidableEq, Repr

/-- The reasons an instruction has no meaning. -/
inductive Refusal where
  /-- An instruction whose meaning is not written yet, by its mnemonic: raised by no arm of `exec` (every row of the
  opcode table has its meaning). Safe. -/
  | notModelled (mnemonic : String)
deriving DecidableEq, Repr

/-- The host's side of the interface (10_state.md R20). No response depends on `accepted` or `responses`: they record,
for the host, which request each response answers (20_memory.md R49(c)). -/
structure State where
  /-- The requests presented and not yet taken, oldest first. -/
  pending : List Request
  /-- The requests the unit has taken, oldest first. -/
  accepted : List Request
  /-- The responses the unit has given, oldest first; the `k`-th answers the `k`-th accepted request. -/
  responses : List Response
deriving DecidableEq, Repr

/-- After reset: the unit has nothing to set and no reset value exists (70_reset_and_hazards.md R230; 10_state.md R32);
no request has been presented and none answered (R231). DESIGN CHOICE, log entry 2. -/
def State.reset : State := { pending := [], accepted := [], responses := [] }

end Sys2Proof.Machine
end

