-- ==== Sys2Proof/Machine/Flags.lean ====
section
/-! DEFINITION. There are no flags and no condition codes (10_state.md R23). What a response signals beside its result is
the 2-bit code `ERR`, and whether there is a result to read. -/

namespace Sys2Proof.Machine

/-- The code of an error (60_exceptions.md R200). -/
def errCode (e : Err) : ErrCode :=
  match e with
  | .invalidBitWidth _ => 1#2
  | .invalidBitIndex _ => 2#2
  | .shapeMismatch _ _ => 3#2

/-- `ERR` of a response: 0 on success (60_exceptions.md R200). -/
def responseCode (r : Response) : ErrCode :=
  match r with
  | .result _ => 0#2
  | .image _ => 0#2
  | .planes _ => 0#2
  | .error e => errCode e

/-- `R` of a response, where there is one to read: only a sample operation answered with `ERR = 0` has one
(30_encoding.md R70). -/
def resultBus? (r : Response) : Option Bus :=
  match r with
  | .result bus => some bus
  | .image _ => none
  | .planes _ => none
  | .error _ => none

end Sys2Proof.Machine
end

