-- ==== Sys2Proof/Machine/Operands.lean ====
section
/-! DEFINITION. The operand forms: the bit width and the bit index checked against their ranges, and Images as operands
(positions, flat order, pointwise maps). -/

namespace Sys2Proof

/-- The width a number stands for, where it stands for one (30_encoding.md R62, R66; 60_exceptions.md R201). -/
def bitWidth? (n : Nat) : Option BitWidth :=
  if h : 1 ≤ n ∧ n ≤ 8 then some ⟨n, h⟩ else none

/-- The bit index a number stands for, where it stands for one (30_encoding.md R62, R66; 60_exceptions.md R202). -/
def bitIndex? (i : Nat) : Option BitIndex :=
  if h : i < 8 then some ⟨i, h⟩ else none

/-- `flat(row, col, c) = (row * cols + col) * ch + c` (20_memory.md R43). -/
def Shape.flat (sh : Shape) (row col c : Nat) : Nat := (row * sh.cols + col) * sh.ch + c

/-- `0 <= row < rows`, `0 <= col < cols`, `0 <= c < ch` (00_scope.md R9). -/
def Shape.contains (sh : Shape) (row col c : Nat) : Bool :=
  decide (row < sh.rows) && decide (col < sh.cols) && decide (c < sh.ch)

/-- `img[row][col][c]` (00_scope.md section 5): the Sample at a position of the Image, none outside it. -/
def Image.sampleAt? (img : Image) (row col c : Nat) : Option Sample :=
  if img.shape.contains row col c then img.samples[img.shape.flat row col c]? else none

/-- The Image of the same shape with `f` applied at every position (20_memory.md R49(a): a pointwise map). -/
def Image.mapSamples (f : Sample → Sample) (img : Image) : Image where
  shape := img.shape
  samples := img.samples.map f
  complete := by rw [List.length_map, img.complete]

/-- The Image of the common shape with `f` applied to the two Samples of every position (20_memory.md R49(a)). -/
def Image.zipSamples (f : Sample → Sample → Sample) (a b : Image) (h : a.shape = b.shape) : Image where
  shape := a.shape
  samples := List.zipWith f a.samples b.samples
  complete := by rw [List.length_zipWith, a.complete, b.complete, h, Nat.min_self]

end Sys2Proof
end

