-- ==== Sys2Proof/Machine/Ops.lean ====
section
/-! DEFINITION. The shared operations: the datapath formulas, the layout of the result bus, presenting and taking a
request, answering it, and raising an error. -/

namespace Sys2Proof

/-- `mask(n) = 0xFF >> (8 - n)` (40_bitplaneshift.md R100). -/
def mask (n : BitWidth) : Sample := 0xFF#8 >>> (8 - n.val)

/-- `(v & mask(n)) << (8 - n)` (40_bitplaneshift.md R101). -/
def promoteSample (v : Sample) (n : BitWidth) : Sample := (v &&& mask n) <<< (8 - n.val)

/-- `(v & (0x01 << i)) << (7 - i)` (40_bitplaneshift.md R102): a set bit gives `0x80`, never 255
(90_conflicts.md C1). -/
def isolateSample (v : Sample) (i : BitIndex) : Sample := (v &&& (0x01#8 <<< i.val)) <<< (7 - i.val)

/-- `(dst & ~mask(n)) | (src >> (8 - n))` (40_bitplaneshift.md R103). -/
def transplantSample (dst src : Sample) (n : BitWidth) : Sample := (dst &&& ~~~(mask n)) ||| (src >>> (8 - n.val))

/-- An 8-bit result on the bus: `R[7:0] <- y`, `R[63:8] <- 0` (30_encoding.md R71). -/
def sampleBus (y : Sample) : Bus := y.setWidth 64

/-- Eight planes on the bus: plane `i` in `R[8i+7 : 8i]` (30_encoding.md R72). -/
def planeBus (plane : BitIndex → Sample) : Bus :=
  plane 7 ++ plane 6 ++ plane 5 ++ plane 4 ++ plane 3 ++ plane 2 ++ plane 1 ++ plane 0

/-- `PLANE[i] = R[8i+7 : 8i]` (30_encoding.md R72); `Y` is byte 0 (R71). -/
def busByte (r : Bus) (i : BitIndex) : Sample := r.extractLsb' (8 * i.val) 8

namespace Machine

/-- The host presents one more request (10_state.md R20); it may do so between any two steps. -/
def State.present (s : State) (q : Request) : State := { s with pending := s.pending ++ [q] }

/-- The unit takes the oldest request presented, if there is one (20_memory.md R49(c), R52). -/
def fetch (s : State) : Option (Request × State) :=
  match s.pending with
  | [] => none
  | q :: rest => some (q, { s with pending := rest, accepted := s.accepted ++ [q] })

/-- The response is returned; nothing else changes (10_state.md R26; 20_memory.md R48). -/
def State.respond (s : State) (r : Response) : State := { s with responses := s.responses ++ [r] }

/-- An operation that succeeds: `ERR <- 0` with its result. -/
def finish (r : Response) (s : State) : Host.Outcome State Fault Refusal := .next (s.respond r)

/-- `raise X(info)` (60_exceptions.md R206): the operation ends with that error as its response, no result is produced and
nothing else changes. There is no vector, no saved state and no mode; the return is the next request's answer, which is
given normally (R207), so no operation returns from an error. -/
def raise (e : Err) (s : State) : Host.Outcome State Fault Refusal := .next (s.respond (.error e))

/-- The guard on `n`, before anything is computed (60_exceptions.md R201; 30_encoding.md R66). -/
def withBitWidth (n : Nat) (s : State) (answer : BitWidth → Host.Outcome State Fault Refusal) :
    Host.Outcome State Fault Refusal :=
  match bitWidth? n with
  | some width => answer width
  | none => raise (.invalidBitWidth n) s

/-- The guard on `i`, before anything is computed (60_exceptions.md R202; 30_encoding.md R66). -/
def withBitIndex (i : Nat) (s : State) (answer : BitIndex → Host.Outcome State Fault Refusal) :
    Host.Outcome State Fault Refusal :=
  match bitIndex? i with
  | some index => answer index
  | none => raise (.invalidBitIndex i) s

end Machine

end Sys2Proof
end

