-- ==== Sys2Proof/Machine/BitPlaneShift.lean ====
section
/-! DEFINITION. The sample operations PROMOTE, ISOLATE and TRANSPLANT (40_bitplaneshift.md). -/

namespace Sys2Proof.Machine

/-- PROMOTE `v, n` (40_bitplaneshift.md R101). -/
def execPromote (v : Sample) (n : PField) (s : State) : Host.Outcome State Fault Refusal :=
  withBitWidth n.toNat s fun width => finish (.result (sampleBus (promoteSample v width))) s

/-- ISOLATE `v, i` (40_bitplaneshift.md R102). -/
def execIsolate (v : Sample) (i : PField) (s : State) : Host.Outcome State Fault Refusal :=
  withBitIndex i.toNat s fun index => finish (.result (sampleBus (isolateSample v index))) s

/-- TRANSPLANT `dst, src, n` (40_bitplaneshift.md R103). -/
def execTransplant (dst src : Sample) (n : PField) (s : State) : Host.Outcome State Fault Refusal :=
  withBitWidth n.toNat s fun width => finish (.result (sampleBus (transplantSample dst src width))) s

end Sys2Proof.Machine
end

