-- ==== Sys2Proof/Machine/Decomposer.lean ====
section
/-! DEFINITION. The bit-plane decomposer: DECOMPOSE over one Sample and BPDECOMPOSE over an Image (43_decompose.md). -/

namespace Sys2Proof.Machine

/-- DECOMPOSE `v`: all eight lanes, always (43_decompose.md R150, R151). It has no check and cannot fail. -/
def execDecompose (v : Sample) (s : State) : Host.Outcome State Fault Refusal :=
  finish (.result (planeBus fun i => isolateSample v i)) s

/-- Output Image `i` of BPDECOMPOSE (43_decompose.md R155). -/
def planeImage (source : Image) (i : BitIndex) : Image := source.mapSamples fun v => isolateSample v i

/-- BPDECOMPOSE `source`: eight Images in bit order (43_decompose.md R155). It has no check and cannot fail. -/
def execBpdecompose (source : Image) (s : State) : Host.Outcome State Fault Refusal :=
  finish (.planes (Vector.ofFn fun i => planeImage source i)) s

end Sys2Proof.Machine
end

