-- ==== Sys2Proof/Machine/Frame.lean ====
section
/-! DEFINITION. The frame macro-operations EXTRACT (42_extract.md) and EMBED (41_embed.md): atomic transactions over whole
Images, each the pointwise map of its sample operation (20_memory.md R49). -/

namespace Sys2Proof.Machine

/-- EXTRACT `source, n` (42_extract.md R140): the check on `n`, then PROMOTE at every position. -/
def execExtract (source : Image) (n : Nat) (s : State) : Host.Outcome State Fault Refusal :=
  withBitWidth n s fun width => finish (.image (source.mapSamples fun v => promoteSample v width)) s

/-- EMBED `stack, needle, n` (41_embed.md R130): the check on `n`, then the comparison of the shapes (R131), then
TRANSPLANT at every position; the order of the checks is 60_exceptions.md R205. -/
def execEmbed (stack needle : Image) (n : Nat) (s : State) : Host.Outcome State Fault Refusal :=
  withBitWidth n s fun width =>
    if h : stack.shape = needle.shape then
      finish (.image (stack.zipSamples (fun dst src => transplantSample dst src width) needle h)) s
    else raise (.shapeMismatch stack.shape needle.shape) s

end Sys2Proof.Machine
end

