-- ==== Sys2Proof/Machine/Dispatch.lean ====
section
/-! DEFINITION. One arm per operation (30_encoding.md R61, R74). -/

namespace Sys2Proof.Machine

/-- What an operation does: it answers the request that asked for it. -/
def exec (i : Instr) (s : State) : Host.Outcome State Fault Refusal :=
  match i with
  | .promote v n => Sys2Proof.Machine.execPromote v n s
  | .isolate v index => Sys2Proof.Machine.execIsolate v index s
  | .transplant dst src n => Sys2Proof.Machine.execTransplant dst src n s
  | .decompose v => Sys2Proof.Machine.execDecompose v s
  | .extract source n => Sys2Proof.Machine.execExtract source n s
  | .embed stack needle n => Sys2Proof.Machine.execEmbed stack needle n s
  | .bpdecompose source => Sys2Proof.Machine.execBpdecompose source s

end Sys2Proof.Machine
end

