-- ==== Sys2Proof/Machine/Step.lean ====
section
/-! DEFINITION. One step of the unit: it takes one request and gives one response (10_state.md R20). -/

namespace Sys2Proof.Machine

/-- One step. With no request presented nothing happens: "nothing happens in the unit except in response to a request"
(60_exceptions.md R208; DEDUCED, log entry 3). -/
def step (s : State) : Host.Outcome State Fault Refusal :=
  match fetch s with
  | none => .next s
  | some (q, s') => exec (decode q) s'

/-- The state in which the word `w` is the next request the unit takes. A number that is no operation word cannot be
presented on the 22-bit ports and changes nothing. -/
def State.withFetchWord (s : State) (nbits w : Nat) : State :=
  match numberWord (w % 2 ^ nbits) with
  | .ok opw => { s with pending := .word opw :: s.pending }
  | .error _ => s

end Sys2Proof.Machine
end

