-- ==== Sys2Proof/Machine/Answer.lean ====
section
/-! DEFINITION. The unit as the spec's `step : Request -> Response` (10_state.md R27): the response to one request, read
off the machine's own step; and the parts of a response that the spec's laws speak of (45_laws.md). -/

namespace Sys2Proof.Machine

/-- The response to one request, presented alone after reset. That it is the same in every other state is R27. -/
def answer (q : Request) : Option Response :=
  match step (State.reset.present q) with
  | .next s => s.responses.getLast?
  | .fault _ => none
  | .refused _ => none

/-- The result bus of a response to `q`, where it has one to read. -/
def busResult (q : Request) : Option Bus := (answer q).bind resultBus?

/-- `Y`, byte 0 of the result (30_encoding.md R71), of a sample operation that succeeds: `T`, `Pr` and `Is` of
45_laws.md. -/
def sampleResult (i : Instr) : Option Sample := (busResult (encode i)).map fun r => busByte r 0

/-- `PLANE[k]` of `DECOMPOSE v` (30_encoding.md R72). -/
def planeResult (v : Sample) (k : BitIndex) : Option Sample :=
  (busResult (encode (.decompose v))).map fun r => busByte r k

/-- The output Image of a response that has one. -/
def outImage? (r : Response) : Option Image :=
  match r with
  | .image out => some out
  | .result _ => none
  | .planes _ => none
  | .error _ => none

/-- The eight output Images of a response that has them. -/
def outPlanes? (r : Response) : Option (Vector Image 8) :=
  match r with
  | .planes outs => some outs
  | .result _ => none
  | .image _ => none
  | .error _ => none

/-- The output Image of EXTRACT or EMBED, where the operation succeeds. -/
def imageResult (i : Instr) : Option Image := (answer (encode i)).bind outImage?

/-- The eight output Images of BPDECOMPOSE. -/
def planesResult (i : Instr) : Option (Vector Image 8) := (answer (encode i)).bind outPlanes?

end Sys2Proof.Machine
end

