-- ==== Sys2Proof/WellFormed.lean ====
section
/-! DEFINITION. Which instructions a host that does its duty presents: a legal `n` or `i` (70_reset_and_hazards.md R235;
what an assembler accepts, 30_encoding.md R73) and, for EMBED, equal shapes (70_reset_and_hazards.md R240). -/

namespace Sys2Proof

/-- `1 <= n <= 8` (00_scope.md R10). -/
def legalWidth (n : Nat) : Bool := decide (1 ≤ n) && decide (n ≤ 8)

/-- `0 <= i <= 7` (00_scope.md R11). -/
def legalIndex (i : Nat) : Bool := decide (i ≤ 7)

/-- The operand checks of each operation (60_exceptions.md R209, its table). -/
def wellFormed (i : Instr) : Bool :=
  match i with
  | .promote _ n => legalWidth n.toNat
  | .isolate _ i => legalIndex i.toNat
  | .transplant _ _ n => legalWidth n.toNat
  | .decompose _ => true
  | .extract _ n => legalWidth n
  | .embed stack needle n => legalWidth n && decide (stack.shape = needle.shape)
  | .bpdecompose _ => true

/-- `wellFormed` as a proposition. -/
abbrev WellFormed (i : Instr) : Prop := wellFormed i = true

end Sys2Proof
end

