-- ==== Sys2Proof/Machine/Assembler.lean ====
section
/-! DEFINITION. The assembler syntax (30_encoding.md R73 to R75): from a line of text to the request it asks for, and from
a word back to its operation with the ignored fields a disassembler comments on. The unit reads none of this. -/

namespace Sys2Proof.Machine

/-- An assembler refuses an illegal `n` or `i` rather than emit an illegal word, and writes zero in every ignored field
(30_encoding.md R73, R75). -/
def assemble (i : Instr) : Option OpWord :=
  if wellFormed i then
    match encode i with
    | .word w => some w
    | .extract _ _ => none
    | .embed _ _ _ => none
    | .bpdecompose _ => none
  else none

/-- The value of a digit in a base of at most 16. -/
def digit? (base : Nat) (c : Char) : Option Nat :=
  let d :=
    if '0' ≤ c ∧ c ≤ '9' then c.toNat - '0'.toNat
    else if 'a' ≤ c ∧ c ≤ 'f' then c.toNat - 'a'.toNat + 10
    else if 'A' ≤ c ∧ c ≤ 'F' then c.toNat - 'A'.toNat + 10
    else 16
  if d < base then some d else none

/-- The number a run of digits denotes, read on from `acc`. -/
def digits? (base acc : Nat) (cs : List Char) : Option Nat :=
  match cs with
  | [] => some acc
  | c :: rest => (digit? base c).bind fun d => digits? base (acc * base + d) rest

/-- A decimal, `0x` or `0b` literal (30_encoding.md R73). -/
def literal? (cs : List Char) : Option Nat :=
  match cs with
  | [] => none
  | '0' :: 'x' :: d :: rest => digits? 16 0 (d :: rest)
  | '0' :: 'b' :: d :: rest => digits? 2 0 (d :: rest)
  | d :: rest => digits? 10 0 (d :: rest)

/-- A literal of at most `bits` bits, for a field of that width. -/
def field? (bits : Nat) (cs : List Char) : Option (BitVec bits) :=
  (literal? cs).bind fun x => if x < 2 ^ bits then some (BitVec.ofNat bits x) else none

/-- A line cut into its mnemonic and its operands: the mnemonic ends at the first space, operands are separated by
commas, spaces around them do not count. DESIGN CHOICE, log entry 14. -/
def cutLine (line : List Char) : List Char × List (List Char) :=
  let mnemonic := line.takeWhile (· ≠ ' ')
  let rest := (line.drop mnemonic.length).filter (· ≠ ' ')
  (mnemonic, rest.splitOn ',')

/-- The operation a sample-operation line spells (30_encoding.md R73). -/
def parseSample (line : List Char) : Option Instr :=
  match cutLine line with
  | (['P', 'R', 'O', 'M', 'O', 'T', 'E'], [v, n]) =>
    (field? 8 v).bind fun v => (field? 4 n).map fun n => .promote v n
  | (['I', 'S', 'O', 'L', 'A', 'T', 'E'], [v, i]) =>
    (field? 8 v).bind fun v => (field? 4 i).map fun i => .isolate v i
  | (['T', 'R', 'A', 'N', 'S', 'P', 'L', 'A', 'N', 'T'], [dst, src, n]) =>
    (field? 8 dst).bind fun dst => (field? 8 src).bind fun src => (field? 4 n).map fun n => .transplant dst src n
  | (['D', 'E', 'C', 'O', 'M', 'P', 'O', 'S', 'E'], [v]) => (field? 8 v).map fun v => .decompose v
  | _ => none

/-- The host's Images by the names its lines use (30_encoding.md R74). -/
abbrev ImageNames := List (List Char × Image)

/-- The transaction a pseudo-instruction line asks for, its source Images looked up by name; the output names are where
the host will keep the results and are no operand of the unit (30_encoding.md R74). DESIGN CHOICE, log entry 23: any
literal is accepted as `n`, and an illegal one is left to the guard of the operation, since the refusal of R73 is stated
for words and R74 states none; a line that names an unknown Image is no request. -/
def parseFrame (names : ImageNames) (line : List Char) : Option Instr :=
  match cutLine line with
  | (['E', 'X', 'T', 'R', 'A', 'C', 'T'], [_, source, n]) =>
    (names.lookup source).bind fun source => (literal? n).map fun n => .extract source n
  | (['E', 'M', 'B', 'E', 'D'], [_, stack, needle, n]) =>
    (names.lookup stack).bind fun stack => (names.lookup needle).bind fun needle =>
      (literal? n).map fun n => .embed stack needle n
  | (['B', 'P', 'D', 'E', 'C', 'O', 'M', 'P', 'O', 'S', 'E'], [_, _, _, _, _, _, _, _, source]) =>
    (names.lookup source).map fun source => .bpdecompose source
  | _ => none

/-- An ignored field with the value a word has in it. -/
inductive IgnoredField where
  | p (value : PField)
  | b (value : Sample)
deriving DecidableEq, Repr

/-- A word's operation, and the ignored fields that are not zero, which a disassembler prints as a trailing comment
(30_encoding.md R75). -/
def disassemble (w : OpWord) : Instr × List IgnoredField :=
  let ignoredP := if opField w = 0b11#2 ∧ pField w ≠ 0#4 then [IgnoredField.p (pField w)] else []
  let ignoredB := if opField w ≠ 0b10#2 ∧ bField w ≠ 0#8 then [IgnoredField.b (bField w)] else []
  (decodeWord w, ignoredP ++ ignoredB)

end Sys2Proof.Machine
end

