-- ==== Sys2Proof/Config.lean ====
section
/-! DEFINITION. What an implementation of the unit fixes and the spec leaves OPEN: the parameters that claims take as
arguments (00_scope.md section 4: an OPEN parameter is one "the model takes as an argument"). No response depends on
either of them. The third OPEN parameter, `LATENCY`, is timing and the model has no time (70_reset_and_hazards.md R244).
The spec leaves no RESULT open, so there is no free value here. -/

namespace Sys2Proof

/-- The implementation's open parameters (92_eei_decisions.md D16, D20). -/
structure Config where
  /-- `LANES`, the number of datapath copies working in parallel, at least 1 (60_exceptions.md R213). -/
  lanes : Nat
  /-- `MAX_DIM`, the largest dimension the implementation's sequencer accepts (92_eei_decisions.md D16). -/
  maxDim : Nat
deriving DecidableEq, Repr

end Sys2Proof
end

