-- ==== Sys2Proof/Machine/Sequencer.lean ====
section
/-! DEFINITION. A frame macro-operation performed as sample operation words, by a host or a hardware sequencer: the words
it expands into in flat order (41_embed.md R133, 42_extract.md R141, 43_decompose.md R156), a schedule that performs them
in any order on several lanes (20_memory.md R49, 60_exceptions.md R213), and the position-stable assembly of the results
(70_reset_and_hazards.md R238). `exec` performs a frame macro-operation as one transaction and uses none of this. -/

namespace Sys2Proof.Machine

/-- `PROMOTE source[row][col][c], n`, one word per position in flat order (42_extract.md R141). -/
def extractWords (source : Image) (n : PField) : List OpWord :=
  source.samples.map fun v => packWord 0b00#2 n 0#8 v

/-- `TRANSPLANT stack[row][col][c], needle[row][col][c], n`, one word per position in flat order (41_embed.md R133). -/
def embedWords (stack needle : Image) (n : PField) : List OpWord :=
  List.zipWith (fun dst src => packWord 0b10#2 n src dst) stack.samples needle.samples

/-- `DECOMPOSE source[row][col][c]`, one word per position in flat order (43_decompose.md R156). -/
def bpdecomposeWords (source : Image) : List OpWord :=
  source.samples.map fun v => packWord 0b11#2 0#4 0#8 v

/-- One lane's work: perform the word of position `k` and put byte `i` of its result at position `k` of the output
(70_reset_and_hazards.md R238). -/
def laneWrite (words : List OpWord) (i : BitIndex) (out : List Sample) (k : Nat) : List Sample :=
  match words[k]? with
  | none => out
  | some w =>
    match busResult (.word w) with
    | none => out
    | some r => out.set k (busByte r i)

/-- The output buffer after a schedule: batches of positions, the positions of one batch at once on as many lanes. Lanes
share nothing (60_exceptions.md R213), so a batch is its positions' writes in any order. -/
def runSchedule (words : List OpWord) (i : BitIndex) (schedule : List (List Nat)) (out : List Sample) : List Sample :=
  schedule.foldl (fun buffer batch => batch.foldl (laneWrite words i) buffer) out

/-- A schedule of `size` positions on this implementation: no batch needs more lanes than there are, and every position
is visited exactly once. -/
def IsSchedule (cfg : Config) (size : Nat) (schedule : List (List Nat)) : Prop :=
  (∀ batch ∈ schedule, batch.length ≤ cfg.lanes) ∧ List.Perm schedule.flatten (List.range size)

/-- Images this implementation's sequencer accepts (92_eei_decisions.md D16; 93_implementation_defined.md U10). -/
def Accepts (cfg : Config) (sh : Shape) : Prop :=
  sh.rows ≤ cfg.maxDim ∧ sh.cols ≤ cfg.maxDim ∧ sh.ch ≤ cfg.maxDim

end Sys2Proof.Machine
end

