-- ==== Sys2Proof/Safety.lean ====
section
/-! DEFINITION. What counts as a correct run. The response the spec's rules give a request, computed a second way, in
unbounded natural numbers from the rules' numerical forms (40_bitplaneshift.md R101 to R103, R105; 43_decompose.md R150;
60_exceptions.md R201 to R205), without the machine's decoder, guards or bit-vector formulas; and the invariant that
every response given so far is that one. -/

namespace Sys2Proof.Safety

open Sys2Proof.Machine

/-- `(v mod 2^n) * 2^(8-n)` (40_bitplaneshift.md R101). -/
def promoteNat (v n : Nat) : Nat := v % 2 ^ n * 2 ^ (8 - n)

/-- 128 where bit `i` of `v` is one, else 0 (40_bitplaneshift.md R102). -/
def isolateNat (v i : Nat) : Nat := if v / 2 ^ i % 2 = 1 then 128 else 0

/-- `floor(dst / 2^n) * 2^n + floor(src / 2^(8-n))` (40_bitplaneshift.md R103). -/
def transplantNat (dst src n : Nat) : Nat := dst / 2 ^ n * 2 ^ n + src / 2 ^ (8 - n)

/-- Plane `i` in byte `i`, for `i` from 0 to 7 (43_decompose.md R150). -/
def decomposeNat (v : Nat) : Nat := ((List.range 8).map fun i => isolateNat v i * 256 ^ i).sum

/-- The response to a word whose fields are the numbers `op`, `p`, `b`, `a` (30_encoding.md R66, R69). -/
def expectedFields (op p b a : Nat) : Response :=
  if op = 0 then
    if 1 ≤ p ∧ p ≤ 8 then .result (BitVec.ofNat 64 (promoteNat a p)) else .error (.invalidBitWidth p)
  else if op = 1 then
    if p ≤ 7 then .result (BitVec.ofNat 64 (isolateNat a p)) else .error (.invalidBitIndex p)
  else if op = 2 then
    if 1 ≤ p ∧ p ≤ 8 then .result (BitVec.ofNat 64 (transplantNat a b p)) else .error (.invalidBitWidth p)
  else .result (BitVec.ofNat 64 (decomposeNat a))

/-- The response to a word, its fields taken by division from its number (30_encoding.md R60: `OP * 2^20 + P * 2^16 +
B * 2^8 + A`). -/
def expectedWord (w : Nat) : Response :=
  expectedFields (w / 2 ^ 20) (w / 2 ^ 16 % 16) (w / 2 ^ 8 % 256) (w % 256)

/-- The Image with a function of numbers applied at every position. -/
def mapNat (f : Nat → Nat) (img : Image) : Image := img.mapSamples fun v => BitVec.ofNat 8 (f v.toNat)

/-- The response the rules give a request. -/
def expected (q : Request) : Response :=
  match q with
  | .word w => expectedWord w.toNat
  | .extract source n =>
    if 1 ≤ n ∧ n ≤ 8 then .image (mapNat (fun v => promoteNat v n) source) else .error (.invalidBitWidth n)
  | .embed stack needle n =>
    if 1 ≤ n ∧ n ≤ 8 then
      if h : stack.shape = needle.shape then
        .image (stack.zipSamples (fun d s => BitVec.ofNat 8 (transplantNat d.toNat s.toNat n)) needle h)
      else .error (.shapeMismatch stack.shape needle.shape)
    else .error (.invalidBitWidth n)
  | .bpdecompose source => .planes (Vector.ofFn fun i => mapNat (fun v => isolateNat v i.val) source)

/-- Every response given so far is the one the rules give the request it answers: one response per request taken, the
`k`-th for the `k`-th (20_memory.md R49(c)). -/
def Inv (s : State) : Prop := s.responses = s.accepted.map expected

end Sys2Proof.Safety
end

