-- ==== Sys2Proof/Certificates/Slice0/Obligations.lean ====
section
/-! DEFINITION. The statements for the provers, from the numbered rules of spec/. -/

open Sys2Proof Sys2Proof.Machine

/-! ## The operation word -/

/-- 30_encoding.md R60: the word is `{OP, P, B, A}`, numerically `OP * 2^20 + P * 2^16 + B * 2^8 + A`, and nothing but
its four fields. -/
def Obligations.OperationWordIsItsFourFields : Prop :=
  (∀ (op : OpField) (p : PField) (b a : Sample),
    (packWord op p b a).toNat = op.toNat * 2 ^ 20 + p.toNat * 2 ^ 16 + b.toNat * 2 ^ 8 + a.toNat ∧
    opField (packWord op p b a) = op ∧ pField (packWord op p b a) = p ∧
    bField (packWord op p b a) = b ∧ aField (packWord op p b a) = a) ∧
  (∀ w : OpWord, packWord (opField w) (pField w) (bField w) (aField w) = w)

/-- 30_encoding.md R69: the decoder's table with its check, as the whole behaviour of every one of the `2^22` words: which
operation a legal word is, and which error an illegal one raises in every state. -/
def Obligations.DecodeFollowsItsTableOnEveryWord : Prop :=
  ∀ (w : OpWord) (s : State),
    (opField w = 0b00#2 → 1 ≤ (pField w).toNat → (pField w).toNat ≤ 8 →
      decodeWord w = .promote (aField w) (pField w)) ∧
    (opField w = 0b00#2 → ¬(1 ≤ (pField w).toNat ∧ (pField w).toNat ≤ 8) →
      exec (decodeWord w) s =
        .next { s with responses := s.responses ++ [.error (.invalidBitWidth (pField w).toNat)] }) ∧
    (opField w = 0b01#2 → (pField w).toNat ≤ 7 → decodeWord w = .isolate (aField w) (pField w)) ∧
    (opField w = 0b01#2 → ¬(pField w).toNat ≤ 7 →
      exec (decodeWord w) s =
        .next { s with responses := s.responses ++ [.error (.invalidBitIndex (pField w).toNat)] }) ∧
    (opField w = 0b10#2 → 1 ≤ (pField w).toNat → (pField w).toNat ≤ 8 →
      decodeWord w = .transplant (aField w) (bField w) (pField w)) ∧
    (opField w = 0b10#2 → ¬(1 ≤ (pField w).toNat ∧ (pField w).toNat ≤ 8) →
      exec (decodeWord w) s =
        .next { s with responses := s.responses ++ [.error (.invalidBitWidth (pField w).toNat)] }) ∧
    (opField w = 0b11#2 → decodeWord w = .decompose (aField w))

/-- Words written out from the encodings of 30_encoding.md R60, R61 (95_test_vectors.md V2, V49, V1, V7A, V80) decode to
the operations they stand for. -/
def Obligations.SampleWordsDecode : Prop :=
  decodeWord 0x0400FA#22 = .promote 0xFA#8 4#4 ∧
  decodeWord 0x1200A5#22 = .isolate 0xA5#8 2#4 ∧
  decodeWord 0x24AAF0#22 = .transplant 0xF0#8 0xAA#8 4#4 ∧
  decodeWord 0x3FFFA5#22 = .decompose 0xA5#8 ∧
  decodeWord 0x0000FA#22 = .promote 0xFA#8 0#4

/-- Decoding the encoding of any instruction gives it back, every operand at every value: legal and illegal `P` fields,
and the transactions. -/
def Obligations.DecodeOfEncodeIsTheInstruction : Prop :=
  ∀ i : Instr, decode (encode i) = i

/-- 30_encoding.md R75: encoding what a word decodes to gives the word again with zero in every field its operation
ignores, and nothing else changed; a disassembler gives the same operation either way, with the ignored fields that are
not zero, and only those, as a trailing comment. -/
def Obligations.EncodeOfDecodeZeroesIgnoredFields : Prop :=
  ∀ w : OpWord, ∃ w' : OpWord, encode (decodeWord w) = .word w' ∧
    opField w' = opField w ∧ aField w' = aField w ∧
    (opField w ≠ 0b11#2 → pField w' = pField w) ∧ (opField w = 0b11#2 → pField w' = 0#4) ∧
    (opField w = 0b10#2 → bField w' = bField w) ∧ (opField w ≠ 0b10#2 → bField w' = 0#8) ∧
    (disassemble w).1 = decodeWord w ∧ (disassemble w').1 = decodeWord w ∧ (disassemble w').2 = [] ∧
    (∀ p, IgnoredField.p p ∈ (disassemble w).2 ↔ opField w = 0b11#2 ∧ p = pField w ∧ p ≠ 0#4) ∧
    (∀ b, IgnoredField.b b ∈ (disassemble w).2 ↔ opField w ≠ 0b10#2 ∧ b = bField w ∧ b ≠ 0#8)

/-- 30_encoding.md R65: two words that agree in the fields their operation uses get the same response in every state,
whatever they hold in the fields it ignores: `B` for PROMOTE, ISOLATE and DECOMPOSE, `P` for DECOMPOSE; and no value in
an ignored field makes a legal word illegal. An assembler writes zero there. -/
def Obligations.IgnoredFieldsDoNotMatter : Prop :=
  (∀ (w w' : OpWord) (s : State), opField w = opField w' → aField w = aField w' →
    (opField w ≠ 0b11#2 → pField w = pField w') → (opField w = 0b10#2 → bField w = bField w') →
    exec (decodeWord w) s = exec (decodeWord w') s ∧
    answer (.word w) = answer (.word w') ∧
    wellFormed (decodeWord w) = wellFormed (decodeWord w')) ∧
  (∀ (i : Instr) (w : OpWord), assemble i = some w →
    (opField w ≠ 0b10#2 → bField w = 0#8) ∧ (opField w = 0b11#2 → pField w = 0#4))

/-- 30_encoding.md R66: the illegal encodings with their codes, and how many words are legal and illegal. -/
def Obligations.IllegalEncodingsAndTheirCount : Prop :=
  (∀ (w : OpWord), ∃ r, answer (.word w) = some r ∧
    (responseCode r = 1#2 ↔ (opField w = 0b00#2 ∨ opField w = 0b10#2) ∧
      pField w ∈ [0#4, 9#4, 10#4, 11#4, 12#4, 13#4, 14#4, 15#4]) ∧
    (responseCode r = 2#2 ↔ opField w = 0b01#2 ∧
      pField w ∈ [8#4, 9#4, 10#4, 11#4, 12#4, 13#4, 14#4, 15#4]) ∧
    responseCode r ≠ 3#2 ∧ (responseCode r ≠ 0#2 → resultBus? r = none)) ∧
  Nat.count (fun k => wellFormed (decodeWord (BitVec.ofNat 22 k)) = true) (2 ^ 22) = 2621440 ∧
  Nat.count (fun k => wellFormed (decodeWord (BitVec.ofNat 22 k)) = false) (2 ^ 22) = 1572864

/-- A number below `2^22` is an operation word and decodes (30_encoding.md R60, R67). That any other number is rejected
by name is the model's own, DEDUCED from the one word length of R68: log entry 13. -/
def Obligations.ExactlyThe22BitNumbersDecode : Prop :=
  (∀ w : Nat, w < 2 ^ 22 → decodeNumber w = .ok (decodeWord (BitVec.ofNat 22 w))) ∧
  (∀ w : Nat, 2 ^ 22 ≤ w → decodeNumber w = .error (.notAnOperationWord w))

/-- 30_encoding.md R73: an assembler emits the word `{OP, P, B, A}` of the spelling's operands, and refuses `n` outside 1
to 8 and `i` outside 0 to 7 rather than emit an illegal word. -/
def Obligations.AssemblerEmitsLegalWordsOnly : Prop :=
  (∀ (v : Sample) (n : PField),
    assemble (.promote v n) =
      if 1 ≤ n.toNat ∧ n.toNat ≤ 8 then some (BitVec.ofNat 22 (n.toNat * 2 ^ 16 + v.toNat)) else none) ∧
  (∀ (v : Sample) (i : PField),
    assemble (.isolate v i) =
      if i.toNat ≤ 7 then some (BitVec.ofNat 22 (2 ^ 20 + i.toNat * 2 ^ 16 + v.toNat)) else none) ∧
  (∀ (dst src : Sample) (n : PField),
    assemble (.transplant dst src n) =
      if 1 ≤ n.toNat ∧ n.toNat ≤ 8 then
        some (BitVec.ofNat 22 (2 * 2 ^ 20 + n.toNat * 2 ^ 16 + src.toNat * 2 ^ 8 + dst.toNat))
      else none) ∧
  (∀ v : Sample, assemble (.decompose v) = some (BitVec.ofNat 22 (3 * 2 ^ 20 + v.toNat)))

/-! ## What each operation computes -/

/-- 40_bitplaneshift.md R101: PROMOTE, whole. Its encoding (`B` ignored); for `1 <= n <= 8` it completes with
`Y = (v mod 2^n) * 2^(8-n)` in `R[7:0]`, `R[63:8] = 0`, bit `k` of `Y` being bit `k - (8 - n)` of `v` from bit `8 - n`
up and 0 below; for any other `P` it raises InvalidBitWidth. Nothing but the response is added to the state. -/
def Obligations.PromoteResult : Prop :=
  (∀ (p : PField) (b a : Sample), decodeWord (packWord 0b00#2 p b a) = .promote a p) ∧
  (∀ (v : Sample) (n : PField) (s : State), 1 ≤ n.toNat → n.toNat ≤ 8 →
    ∃ y : Sample,
      exec (.promote v n) s = .next { s with responses := s.responses ++ [.result (BitVec.ofNat 64 y.toNat)] } ∧
      y.toNat = v.toNat % 2 ^ n.toNat * 2 ^ (8 - n.toNat) ∧
      ∀ k < 8, y.getLsbD k = (decide (8 - n.toNat ≤ k) && v.getLsbD (k - (8 - n.toNat)))) ∧
  (∀ (v : Sample) (n : PField) (s : State), n.toNat < 1 ∨ 8 < n.toNat →
    exec (.promote v n) s = .next { s with responses := s.responses ++ [.error (.invalidBitWidth n.toNat)] })

/-- 40_bitplaneshift.md R102: ISOLATE, whole. Its encoding (`B` ignored); for `0 <= i <= 7` it completes with `0x80` in
`R[7:0]` where bit `i` of `v` is one and `0x00` where it is zero, `R[63:8] = 0`; for any other `P` it raises
InvalidBitIndex. -/
def Obligations.IsolateResult : Prop :=
  (∀ (p : PField) (b a : Sample), decodeWord (packWord 0b01#2 p b a) = .isolate a p) ∧
  (∀ (v : Sample) (i : PField) (s : State), i.toNat ≤ 7 →
    exec (.isolate v i) s =
      .next { s with
        responses := s.responses ++ [.result (if v.getLsbD i.toNat then 0x80#64 else 0x00#64)] }) ∧
  (∀ (v : Sample) (i : PField) (s : State), 7 < i.toNat →
    exec (.isolate v i) s = .next { s with responses := s.responses ++ [.error (.invalidBitIndex i.toNat)] })

/-- 40_bitplaneshift.md R103: TRANSPLANT, whole. Its encoding; for `1 <= n <= 8` it completes with
`Y = floor(dst / 2^n) * 2^n + floor(src / 2^(8-n))` in `R[7:0]`, `R[63:8] = 0`, bits below `n` being the high bits of
`src` and the others those of `dst`; for any other `P` it raises InvalidBitWidth. -/
def Obligations.TransplantResult : Prop :=
  (∀ (p : PField) (b a : Sample), decodeWord (packWord 0b10#2 p b a) = .transplant a b p) ∧
  (∀ (dst src : Sample) (n : PField) (s : State), 1 ≤ n.toNat → n.toNat ≤ 8 →
    ∃ y : Sample,
      exec (.transplant dst src n) s =
        .next { s with responses := s.responses ++ [.result (BitVec.ofNat 64 y.toNat)] } ∧
      y.toNat = dst.toNat / 2 ^ n.toNat * 2 ^ n.toNat + src.toNat / 2 ^ (8 - n.toNat) ∧
      ∀ k < 8, y.getLsbD k = if k < n.toNat then src.getLsbD (k + (8 - n.toNat)) else dst.getLsbD k) ∧
  (∀ (dst src : Sample) (n : PField) (s : State), n.toNat < 1 ∨ 8 < n.toNat →
    exec (.transplant dst src n) s = .next { s with responses := s.responses ++ [.error (.invalidBitWidth n.toNat)] })

/-- 43_decompose.md R150: DECOMPOSE, whole. Its encoding (`P` and `B` ignored); it always completes, with
`R[8i+7] = v[i]` for every `i` and every other bit of `R` zero. -/
def Obligations.DecomposeResult : Prop :=
  (∀ (p : PField) (b a : Sample), decodeWord (packWord 0b11#2 p b a) = .decompose a) ∧
  (∀ (v : Sample) (s : State), ∃ r : Bus,
    exec (.decompose v) s = .next { s with responses := s.responses ++ [.result r] } ∧
    ∀ k < 64, r.getLsbD k = (decide (k % 8 = 7) && v.getLsbD (k / 8)))

/-- 42_extract.md R140: EXTRACT, whole. For `1 <= n <= 8` it completes with an Image of the source's shape whose Sample at
every position is `(v mod 2^n) * 2^(8-n)` of the source's Sample `v` there, an Image with a zero dimension included; for
any other `n` it raises InvalidBitWidth. -/
def Obligations.ExtractResult : Prop :=
  (∀ (source : Image) (n : Nat) (s : State), 1 ≤ n → n ≤ 8 →
    ∃ out : Image,
      exec (.extract source n) s = .next { s with responses := s.responses ++ [.image out] } ∧
      out.shape = source.shape ∧
      ∀ row col c, row < source.shape.rows → col < source.shape.cols → c < source.shape.ch →
        ∃ v y : Sample, source.sampleAt? row col c = some v ∧ out.sampleAt? row col c = some y ∧
          y.toNat = v.toNat % 2 ^ n * 2 ^ (8 - n)) ∧
  (∀ (source : Image) (n : Nat) (s : State), n < 1 ∨ 8 < n →
    exec (.extract source n) s = .next { s with responses := s.responses ++ [.error (.invalidBitWidth n)] })

/-- 41_embed.md R130: EMBED, whole. For `1 <= n <= 8` and equal shapes it completes with an Image of that shape whose
Sample at every position is `floor(dst / 2^n) * 2^n + floor(src / 2^(8-n))` of the stack's and the needle's Samples
there; for any other `n` it raises InvalidBitWidth, whatever the shapes; for a legal `n` and unequal shapes it raises
ShapeMismatch. -/
def Obligations.EmbedResult : Prop :=
  (∀ (stack needle : Image) (n : Nat) (s : State), 1 ≤ n → n ≤ 8 → stack.shape = needle.shape →
    ∃ out : Image,
      exec (.embed stack needle n) s = .next { s with responses := s.responses ++ [.image out] } ∧
      out.shape = stack.shape ∧
      ∀ row col c, row < stack.shape.rows → col < stack.shape.cols → c < stack.shape.ch →
        ∃ dst src y : Sample, stack.sampleAt? row col c = some dst ∧ needle.sampleAt? row col c = some src ∧
          out.sampleAt? row col c = some y ∧
          y.toNat = dst.toNat / 2 ^ n * 2 ^ n + src.toNat / 2 ^ (8 - n)) ∧
  (∀ (stack needle : Image) (n : Nat) (s : State), n < 1 ∨ 8 < n →
    exec (.embed stack needle n) s = .next { s with responses := s.responses ++ [.error (.invalidBitWidth n)] }) ∧
  (∀ (stack needle : Image) (n : Nat) (s : State), 1 ≤ n → n ≤ 8 → stack.shape ≠ needle.shape →
    exec (.embed stack needle n) s =
      .next { s with responses := s.responses ++ [.error (.shapeMismatch stack.shape needle.shape)] })

/-- 43_decompose.md R155: BPDECOMPOSE, whole. It always completes, with eight Images of the source's shape; the Sample of
output `i` at every position is `0x80` where bit `i` of the source's Sample there is one, else `0x00`. -/
def Obligations.BpdecomposeResult : Prop :=
  ∀ (source : Image) (s : State), ∃ outs : Vector Image 8,
    exec (.bpdecompose source) s = .next { s with responses := s.responses ++ [.planes outs] } ∧
    ∀ i : Fin 8, outs[i].shape = source.shape ∧
      ∀ row col c, row < source.shape.rows → col < source.shape.cols → c < source.shape.ch →
        ∃ v : Sample, source.sampleAt? row col c = some v ∧
          outs[i].sampleAt? row col c = some (if v.getLsbD i.val then 0x80#8 else 0x00#8)

/-- 40_bitplaneshift.md R100: `mask(n)` has the value `2^n - 1`, its bits `n-1` down to 0 are one and its others zero, and
its 8-bit complement is `0xFF - mask(n)` with the opposite bits. -/
def Obligations.MaskBits : Prop :=
  ∀ n : BitWidth, (mask n).toNat = 2 ^ n.val - 1 ∧ (~~~(mask n)) = 0xFF#8 - mask n ∧
    ∀ k < 8, (mask n).getLsbD k = decide (k < n.val) ∧ (~~~(mask n)).getLsbD k = decide (n.val ≤ k)

/-- 40_bitplaneshift.md R105: the source's formulas over unbounded integers (`~x = -x - 1`) agree with what the machine
computes in 8 bits, for every legal operand; in particular no result leaves 0 to 255. -/
def Obligations.UnboundedFormulasAgreeWithEightBits : Prop :=
  (∀ (v : Sample) (n : PField), 1 ≤ n.toNat → n.toNat ≤ 8 →
    ∃ y : Sample, sampleResult (.promote v n) = some y ∧
      (y.toNat : Int) = (((v.toNat &&& (0xFF >>> (8 - n.toNat))) <<< (8 - n.toNat) : Nat) : Int)) ∧
  (∀ (v : Sample) (i : PField), i.toNat ≤ 7 →
    ∃ y : Sample, sampleResult (.isolate v i) = some y ∧
      (y.toNat : Int) = (((v.toNat &&& (1 <<< i.toNat)) <<< (7 - i.toNat) : Nat) : Int)) ∧
  (∀ (dst src : Sample) (n : PField), 1 ≤ n.toNat → n.toNat ≤ 8 →
    ∃ y : Sample, sampleResult (.transplant dst src n) = some y ∧
      (y.toNat : Int) =
        Int.lor (Int.land (dst.toNat : Int) (-(((0xFF >>> (8 - n.toNat) : Nat) : Int)) - 1))
          ((src.toNat >>> (8 - n.toNat) : Nat) : Int))

/-! ## Errors -/

/-- 60_exceptions.md R201: an illegal `n` is answered with InvalidBitWidth, `ERR = 1` and no result, by PROMOTE,
TRANSPLANT, EXTRACT and EMBED (with whatever shapes). -/
def Obligations.IllegalWidthRaisesInvalidBitWidth : Prop :=
  (∀ (p : PField), p = 0#4 ∨ 9 ≤ p.toNat → ∀ (v dst src : Sample) (s : State),
    exec (.promote v p) s = .next { s with responses := s.responses ++ [.error (.invalidBitWidth p.toNat)] } ∧
    exec (.transplant dst src p) s = .next { s with responses := s.responses ++ [.error (.invalidBitWidth p.toNat)] }) ∧
  (∀ n : Nat, n = 0 ∨ 9 ≤ n → ∀ (source stack needle : Image) (s : State),
    exec (.extract source n) s = .next { s with responses := s.responses ++ [.error (.invalidBitWidth n)] } ∧
    exec (.embed stack needle n) s = .next { s with responses := s.responses ++ [.error (.invalidBitWidth n)] }) ∧
  (∀ n : Nat, responseCode (.error (.invalidBitWidth n)) = 1#2 ∧ resultBus? (.error (.invalidBitWidth n)) = none ∧
    outImage? (.error (.invalidBitWidth n)) = none)

/-- 60_exceptions.md R202: an illegal `i` is answered with InvalidBitIndex, `ERR = 2` and no result; DECOMPOSE and
BPDECOMPOSE take no index and never raise it. -/
def Obligations.IllegalIndexRaisesInvalidBitIndex : Prop :=
  (∀ (p : PField), 8 ≤ p.toNat → ∀ (v : Sample) (s : State),
    exec (.isolate v p) s = .next { s with responses := s.responses ++ [.error (.invalidBitIndex p.toNat)] }) ∧
  (∀ i : Nat, responseCode (.error (.invalidBitIndex i)) = 2#2 ∧ resultBus? (.error (.invalidBitIndex i)) = none) ∧
  (∀ v : Sample, ∃ r, answer (encode (.decompose v)) = some r ∧ responseCode r = 0#2) ∧
  (∀ source : Image, ∃ r, answer (encode (.bpdecompose source)) = some r ∧ responseCode r = 0#2)

/-- 45_laws.md R172, 41_embed.md R131: for every legal `n`, a difference in any one component of the shapes makes EMBED
raise ShapeMismatch, `ERR = 3`, and return no Image, whatever the Samples are. -/
def Obligations.AnyShapeDifferenceRaisesShapeMismatch : Prop :=
  ∀ (stack needle : Image) (n : Nat) (s : State), 1 ≤ n → n ≤ 8 →
    stack.shape.rows ≠ needle.shape.rows ∨ stack.shape.cols ≠ needle.shape.cols ∨ stack.shape.ch ≠ needle.shape.ch →
    ∃ r, exec (.embed stack needle n) s = .next { s with responses := s.responses ++ [r] } ∧
      r = .error (.shapeMismatch stack.shape needle.shape) ∧ responseCode r = 3#2 ∧ outImage? r = none

/-- 60_exceptions.md R205: EMBED checks `n` first, then the shapes, then does the work, and reports one error. -/
def Obligations.EmbedChecksWidthThenShapes : Prop :=
  ∀ (stack needle : Image) (n : Nat), ∃ r, answer (encode (.embed stack needle n)) = some r ∧
    (responseCode r = 1#2 ↔ ¬(1 ≤ n ∧ n ≤ 8)) ∧
    (responseCode r = 3#2 ↔ (1 ≤ n ∧ n ≤ 8) ∧ stack.shape ≠ needle.shape) ∧
    (responseCode r = 0#2 ↔ (1 ≤ n ∧ n ≤ 8) ∧ stack.shape = needle.shape)

/-- 60_exceptions.md R209, its table: which operation raises which error, exactly when. -/
def Obligations.ErrorTableIsExact : Prop :=
  ∀ (i : Instr) (s : State), ∃ r, exec i s = .next { s with responses := s.responses ++ [r] } ∧
    (responseCode r = 1#2 ↔
      (∃ v n, i = .promote v n ∧ ¬(1 ≤ n.toNat ∧ n.toNat ≤ 8)) ∨
      (∃ dst src n, i = .transplant dst src n ∧ ¬(1 ≤ n.toNat ∧ n.toNat ≤ 8)) ∨
      (∃ source n, i = .extract source n ∧ ¬(1 ≤ n ∧ n ≤ 8)) ∨
      (∃ stack needle n, i = .embed stack needle n ∧ ¬(1 ≤ n ∧ n ≤ 8))) ∧
    (responseCode r = 2#2 ↔ ∃ v k, i = .isolate v k ∧ 8 ≤ k.toNat) ∧
    (responseCode r = 3#2 ↔
      ∃ stack needle n, i = .embed stack needle n ∧ (1 ≤ n ∧ n ≤ 8) ∧ stack.shape ≠ needle.shape)

/-- 70_reset_and_hazards.md R235, R240: the instructions a host that does its duty presents are exactly those answered
with `ERR = 0`. -/
def Obligations.WellFormedExactlyWhenNoError : Prop :=
  ∀ (i : Instr) (s : State), ∃ r, exec i s = .next { s with responses := s.responses ++ [r] } ∧
    (WellFormed i ↔ responseCode r = 0#2)

/-- 60_exceptions.md R206, R207: a request answered with an error adds that one response and changes nothing else, and the
next request, any request, is answered in the very next step exactly as it would be alone. That several requests wait in a
list is the model's choice (DESIGN CHOICE, log entry 1), that the error is a next state is DEDUCED (log entry 4). -/
def Obligations.AnErrorLeavesNothingBehind : Prop :=
  ∀ (s : State) (bad q : Request) (rest : List Request) (e : Err),
    s.pending = bad :: q :: rest → answer bad = some (.error e) →
    ∃ (t u : State) (r : Response),
      step s = .next t ∧
      t = { pending := q :: rest, accepted := s.accepted ++ [bad], responses := s.responses ++ [.error e] } ∧
      step t = .next u ∧ answer q = some r ∧
      u = { pending := rest, accepted := s.accepted ++ [bad, q], responses := s.responses ++ [.error e, r] }

/-- 60_exceptions.md R214: every request has exactly one of two outcomes, success (`ERR = 0` and a result) or one error
(`ERR` in 1 to 3 and no result of any kind), in the step that takes it; no step faults, is refused or is stuck. (Which
state a step with no request pending answers is log entry 3, and is not claimed here.) -/
def Obligations.EveryRequestHasOneOfTwoOutcomes : Prop :=
  (∀ s : State, ∃ t, step s = .next t) ∧
  (∀ (s : State) (q : Request) (rest : List Request), s.pending = q :: rest → ∃ r : Response,
    step s = .next { pending := rest, accepted := s.accepted ++ [q], responses := s.responses ++ [r] } ∧
    ((responseCode r = 0#2 ∧
        ((resultBus? r).isSome ∨ (outImage? r).isSome ∨ (outPlanes? r).isSome)) ∨
     (responseCode r ≠ 0#2 ∧ resultBus? r = none ∧ outImage? r = none ∧ outPlanes? r = none)))

/-! ## The laws of 45_laws.md -/

/-- 45_laws.md R170, 42_extract.md R142: the round trip. In sample form, `Pr(T(d, s, n), n)` is `s` with its low `8 - n`
bits cleared, whatever `d` is. In frame form, EXTRACT of EMBED has the needle's shape and at every position the needle's
Sample with its low `8 - n` bits cleared. -/
def Obligations.RoundTripBound : Prop :=
  (∀ (d s : Sample) (n : PField), 1 ≤ n.toNat → n.toNat ≤ 8 →
    ∃ y, sampleResult (.transplant d s n) = some y ∧
      sampleResult (.promote y n) = some ((s >>> (8 - n.toNat)) <<< (8 - n.toNat)) ∧
      (s >>> (8 - n.toNat)) <<< (8 - n.toNat) = s &&& ~~~(0xFF#8 >>> n.toNat)) ∧
  (∀ (stack needle : Image) (n : Nat), 1 ≤ n → n ≤ 8 → stack.shape = needle.shape →
    ∃ x y : Image, imageResult (.embed stack needle n) = some x ∧ imageResult (.extract x n) = some y ∧
      y.shape = needle.shape ∧
      ∀ row col c, y.sampleAt? row col c =
        (needle.sampleAt? row col c).map fun s => s &&& ~~~(0xFF#8 >>> n))

/-- 45_laws.md R171 (b): embedding the same needle again with the same `n` changes nothing, in sample and in frame form. -/
def Obligations.ReembeddingChangesNothing : Prop :=
  (∀ (d s : Sample) (n : PField), 1 ≤ n.toNat → n.toNat ≤ 8 →
    ∃ y, sampleResult (.transplant d s n) = some y ∧ sampleResult (.transplant y s n) = some y) ∧
  (∀ (stack needle : Image) (n : Nat), 1 ≤ n → n ≤ 8 → stack.shape = needle.shape →
    ∃ x, imageResult (.embed stack needle n) = some x ∧ imageResult (.embed x needle n) = some x)

/-- 45_laws.md R173: `Is(v, i) = 0x80` where `v[i] = 1`, else `0x00`; it is never 255. -/
def Obligations.IsolateGivesBitAtTop : Prop :=
  ∀ (v : Sample) (i : PField), i.toNat ≤ 7 →
    ∃ y, sampleResult (.isolate v i) = some y ∧ y = (if v.getLsbD i.toNat = true then 128#8 else 0#8) ∧ y ≠ 255#8

/-- 45_laws.md R174: with `n = 8` EMBED's output is the needle exactly and EXTRACT's the source exactly, in sample and in
frame form. -/
def Obligations.FullWidthIsIdentity : Prop :=
  (∀ d s : Sample, sampleResult (.transplant d s 8#4) = some s) ∧
  (∀ v : Sample, sampleResult (.promote v 8#4) = some v) ∧
  (∀ stack needle : Image, stack.shape = needle.shape → imageResult (.embed stack needle 8) = some needle) ∧
  (∀ source : Image, imageResult (.extract source 8) = some source)

/-- 45_laws.md R175: with `n = 1`, bits 7 to 1 are the stack's and bit 0 is the needle's bit 7. -/
def Obligations.SingleBitEmbed : Prop :=
  ∀ d s : Sample, ∃ y, sampleResult (.transplant d s 1#4) = some y ∧
    y = (d &&& 0xFE#8) ||| (if s.getLsbD 7 then 1#8 else 0#8) ∧
    (∀ k, 1 ≤ k → k ≤ 7 → y.getLsbD k = d.getLsbD k) ∧ y.getLsbD 0 = s.getLsbD 7

/-- 45_laws.md R176: the eight planes reconstruct the Sample, bit `i` being the top bit of plane `i` (the OR of those
bits at their places) and the Sample the sum of the planes shifted back; a plane's top bit is one exactly where the plane
is 128, exactly where it is not 0, and no plane is 255; and the eight Images of BPDECOMPOSE reconstruct the Image at every position. -/
def Obligations.PlanesReconstructTheSample : Prop :=
  (∀ v : Sample, ∃ plane : BitIndex → Sample, (∀ i, planeResult v i = some (plane i)) ∧
    (∀ i, ((plane i).getLsbD 7 = true ↔ plane i = 128#8) ∧ ((plane i).getLsbD 7 = true ↔ plane i ≠ 0#8) ∧
      plane i ≠ 255#8) ∧
    (∀ i : BitIndex, v.getLsbD i.val = (plane i).getLsbD 7) ∧
    v.toNat = ∑ i : BitIndex, (plane i).toNat >>> (7 - i.val)) ∧
  (∀ source : Image, ∃ outs, planesResult (.bpdecompose source) = some outs ∧
    ∀ row col c, row < source.shape.rows → col < source.shape.cols → c < source.shape.ch →
      ∃ (v : Sample) (plane : BitIndex → Sample), source.sampleAt? row col c = some v ∧
        (∀ i : BitIndex, outs[i].sampleAt? row col c = some (plane i) ∧ v.getLsbD i.val = (plane i).getLsbD 7) ∧
        v.toNat = ∑ i : BitIndex, (plane i).toNat >>> (7 - i.val))

/-- 45_laws.md R178: TRANSPLANT keeps the stack's high bits and takes the needle's; it depends on `d` only through
`d >> n` and on `s` only through `s >> (8 - n)`; and for each `n` it takes every value. -/
def Obligations.TransplantKeepsStackHighTakesNeedleHigh : Prop :=
  ∀ n : PField, 1 ≤ n.toNat → n.toNat ≤ 8 →
    (∀ d s : Sample, ∃ y, sampleResult (.transplant d s n) = some y ∧
      (n.toNat ≤ 7 → y >>> n.toNat = d >>> n.toNat) ∧
      y &&& (0xFF#8 >>> (8 - n.toNat)) = s >>> (8 - n.toNat)) ∧
    (∀ d d' s s' : Sample, d >>> n.toNat = d' >>> n.toNat → s >>> (8 - n.toNat) = s' >>> (8 - n.toNat) →
      sampleResult (.transplant d s n) = sampleResult (.transplant d' s' n)) ∧
    (∀ y : Sample, ∃ d s : Sample, sampleResult (.transplant d s n) = some y)

/-- 45_laws.md R179: PROMOTE leaves the low `8 - n` bits zero, and its high bits shifted back are `v & mask(n)`. -/
def Obligations.PromoteZeroesTheLowEnd : Prop :=
  ∀ (v : Sample) (n : PField), 1 ≤ n.toNat → n.toNat ≤ 7 →
    ∃ y, sampleResult (.promote v n) = some y ∧ y &&& (0xFF#8 >>> n.toNat) = 0#8 ∧
      y >>> (8 - n.toNat) = v &&& (0xFF#8 >>> (8 - n.toNat))

/-- 45_laws.md R180: each plane is `0x00` or `0x80`, and as many of the eight are `0x80` as `v` has one bits. -/
def Obligations.PlaneValuesAndTheirNumber : Prop :=
  ∀ v : Sample, ∃ plane : BitIndex → Sample, (∀ i, planeResult v i = some (plane i)) ∧
    (∀ i, plane i = 0x00#8 ∨ plane i = 0x80#8) ∧
    (Finset.univ.filter fun i : BitIndex => plane i = 0x80#8).card =
      (Finset.univ.filter fun i : BitIndex => v.getLsbD i.val = true).card

/-- 40_bitplaneshift.md R106, 45_laws.md R181: `ISOLATE(v, i) = PROMOTE(v >> i, 1)`, and `ISOLATE(v, 0) = PROMOTE(v, 1)`. -/
def Obligations.IsolateIsPromoteOfTheShiftedSample : Prop :=
  (∀ (v : Sample) (i : PField), i.toNat ≤ 7 → ∃ y,
    sampleResult (.isolate v i) = some y ∧ sampleResult (.promote (v >>> i.toNat) 1#4) = some y) ∧
  (∀ v : Sample, sampleResult (.isolate v 0#4) = sampleResult (.promote v 1#4))

/-- 43_decompose.md R152: byte `i` of `DECOMPOSE v` is the result of `ISOLATE v, i`. -/
def Obligations.DecomposeIsEightIsolates : Prop :=
  ∀ (v : Sample) (i : BitIndex), ∃ y, planeResult v i = some y ∧
    sampleResult (.isolate v (BitVec.ofNat 4 i.val)) = some y

/-- 45_laws.md R182: PROMOTE is idempotent for `n = 8` only; for `n <= 4` twice gives 0; and at `n = 1` to 7 the equation
fails for 128, 192, 224, 240, 248, 252, 254 of the 256 Samples, that is for `256 - 2^(8-n)`. -/
def Obligations.ExtractingTwiceIsNotExtractingOnce : Prop :=
  ∀ n : PField, 1 ≤ n.toNat → n.toNat ≤ 8 →
    ((∀ v : Sample, (sampleResult (.promote v n)).bind (fun y => sampleResult (.promote y n)) =
        sampleResult (.promote v n)) ↔ n.toNat = 8) ∧
    (n.toNat ≤ 4 → ∀ v : Sample,
      (sampleResult (.promote v n)).bind (fun y => sampleResult (.promote y n)) = some 0#8) ∧
    (n.toNat ≤ 7 → Nat.count (fun k =>
      (sampleResult (.promote (BitVec.ofNat 8 k) n)).bind (fun y => sampleResult (.promote y n)) ≠
        sampleResult (.promote (BitVec.ofNat 8 k) n)) 256 = 256 - 2 ^ (8 - n.toNat))

/-- 45_laws.md R184: extracting with another width than the one embedded with is no error, and no round trip in general. -/
def Obligations.AnotherWidthIsNoErrorAndNoRoundTrip : Prop :=
  (∀ (d s : Sample) (n m : PField), 1 ≤ n.toNat → n.toNat ≤ 8 → 1 ≤ m.toNat → m.toNat ≤ 8 →
    ∃ y z, sampleResult (.transplant d s n) = some y ∧ sampleResult (.promote y m) = some z) ∧
  (∀ n m : PField, 1 ≤ n.toNat → n.toNat ≤ 8 → 1 ≤ m.toNat → m.toNat ≤ 8 → n ≠ m →
    ∃ d s y z : Sample, sampleResult (.transplant d s n) = some y ∧ sampleResult (.promote y m) = some z ∧
      z ≠ s &&& ~~~(0xFF#8 >>> n.toNat)) ∧
  (sampleResult (.transplant 0xF0#8 0xAA#8 4#4) = some 0xFA#8 ∧ sampleResult (.promote 0xFA#8 2#4) = some 0x80#8)

/-- 45_laws.md R177: the source's concrete scenario. -/
def Obligations.ConcreteScenario : Prop :=
  answer (.word 0x24AAF0#22) = some (.result 250#64) ∧ answer (.word 0x0400FA#22) = some (.result 160#64)

/-- 45_laws.md R185: shapes are preserved, by EMBED, EXTRACT and BPDECOMPOSE. -/
def Obligations.ShapesArePreserved : Prop :=
  (∀ (source : Image) (n : Nat), 1 ≤ n → n ≤ 8 →
    ∃ out, imageResult (.extract source n) = some out ∧ out.shape = source.shape) ∧
  (∀ (stack needle : Image) (n : Nat), 1 ≤ n → n ≤ 8 → stack.shape = needle.shape →
    ∃ out, imageResult (.embed stack needle n) = some out ∧ out.shape = stack.shape ∧ out.shape = needle.shape) ∧
  (∀ source : Image, ∃ outs, planesResult (.bpdecompose source) = some outs ∧
    ∀ i : BitIndex, outs[i].shape = source.shape)

/-! ## Frames: positions, expansion, schedules -/

/-- 20_memory.md R43, 00_scope.md R9: the flat index numbers the positions of a shape, each once, from 0 to
`rows * cols * ch - 1`, so every Image has exactly one Sample at every position. -/
def Obligations.FlatOrderNumbersThePositions : Prop :=
  ∀ sh : Shape,
    (∀ row col c, row < sh.rows → col < sh.cols → c < sh.ch → sh.flat row col c < sh.rows * sh.cols * sh.ch) ∧
    (∀ row col c row' col' c', row < sh.rows → col < sh.cols → c < sh.ch →
      row' < sh.rows → col' < sh.cols → c' < sh.ch → sh.flat row col c = sh.flat row' col' c' →
      row = row' ∧ col = col' ∧ c = c') ∧
    (∀ k, k < sh.rows * sh.cols * sh.ch → ∃ row col c, row < sh.rows ∧ col < sh.cols ∧ c < sh.ch ∧
      sh.flat row col c = k)

/-- 20_memory.md R49 (a): the output Sample at a position is a function of `n` and of the operand Samples at that same
position and of nothing else. -/
def Obligations.OutputDependsOnItsOwnPositionOnly : Prop :=
  (∀ (x x' : Image) (n row col c : Nat), 1 ≤ n → n ≤ 8 → x.sampleAt? row col c = x'.sampleAt? row col c →
    ∃ y y', imageResult (.extract x n) = some y ∧ imageResult (.extract x' n) = some y' ∧
      y.sampleAt? row col c = y'.sampleAt? row col c) ∧
  (∀ (a a' b b' : Image) (n row col c : Nat), 1 ≤ n → n ≤ 8 → a.shape = b.shape → a'.shape = b'.shape →
    a.sampleAt? row col c = a'.sampleAt? row col c → b.sampleAt? row col c = b'.sampleAt? row col c →
    ∃ y y', imageResult (.embed a b n) = some y ∧ imageResult (.embed a' b' n) = some y' ∧
      y.sampleAt? row col c = y'.sampleAt? row col c) ∧
  (∀ (x x' : Image) (row col c : Nat), x.sampleAt? row col c = x'.sampleAt? row col c →
    ∃ ys ys', planesResult (.bpdecompose x) = some ys ∧ planesResult (.bpdecompose x') = some ys' ∧
      ∀ i : BitIndex, ys[i].sampleAt? row col c = ys'[i].sampleAt? row col c)

/-- 41_embed.md R133: EMBED is exactly its TRANSPLANT words, one per position in flat order, none of which raises an
error: the `k`-th word's `Y` is the output Sample at flat index `k`. -/
def Obligations.EmbedIsItsTransplantWords : Prop :=
  ∀ (stack needle : Image) (n : PField), 1 ≤ n.toNat → n.toNat ≤ 8 → stack.shape = needle.shape →
    ∃ out : Image, imageResult (.embed stack needle n.toNat) = some out ∧
      (embedWords stack needle n).length = stack.shape.rows * stack.shape.cols * stack.shape.ch ∧
      ∀ k, k < stack.shape.rows * stack.shape.cols * stack.shape.ch → ∃ (dst src y : Sample),
        stack.samples[k]? = some dst ∧ needle.samples[k]? = some src ∧
        (embedWords stack needle n)[k]? = some (packWord 0b10#2 n src dst) ∧
        answer (.word (packWord 0b10#2 n src dst)) = some (.result (sampleBus y)) ∧ out.samples[k]? = some y

/-- 42_extract.md R141: EXTRACT is exactly its PROMOTE words, one per position in flat order, none of which raises an
error: the `k`-th word's `Y` is the output Sample at flat index `k`. -/
def Obligations.ExtractIsItsPromoteWords : Prop :=
  ∀ (source : Image) (n : PField), 1 ≤ n.toNat → n.toNat ≤ 8 →
    ∃ out : Image, imageResult (.extract source n.toNat) = some out ∧
      (extractWords source n).length = source.shape.rows * source.shape.cols * source.shape.ch ∧
      ∀ k, k < source.shape.rows * source.shape.cols * source.shape.ch → ∃ (v y : Sample),
        source.samples[k]? = some v ∧ (extractWords source n)[k]? = some (packWord 0b00#2 n 0x00#8 v) ∧
        answer (.word (packWord 0b00#2 n 0x00#8 v)) = some (.result (sampleBus y)) ∧ out.samples[k]? = some y

/-- 43_decompose.md R156: BPDECOMPOSE is exactly its DECOMPOSE words, one per position in flat order: byte `i` of the
`k`-th result is the Sample of output `i` at flat index `k`; equivalently, it is eight ISOLATE words per position. -/
def Obligations.BpdecomposeIsItsDecomposeWords : Prop :=
  ∀ source : Image, ∃ outs, planesResult (.bpdecompose source) = some outs ∧
    (bpdecomposeWords source).length = source.shape.rows * source.shape.cols * source.shape.ch ∧
    ∀ k, k < source.shape.rows * source.shape.cols * source.shape.ch → ∃ (v : Sample) (r : Bus),
      source.samples[k]? = some v ∧ (bpdecomposeWords source)[k]? = some (packWord 0b11#2 0x0#4 0x00#8 v) ∧
      answer (.word (packWord 0b11#2 0x0#4 0x00#8 v)) = some (.result r) ∧
      ∀ i : BitIndex, outs[i].samples[k]? = some (busByte r i) ∧
        busResult (.word (packWord 0b01#2 (BitVec.ofNat 4 i.val) 0x00#8 v)) = some (sampleBus (busByte r i))

/-- 20_memory.md R49 (b), R53, 60_exceptions.md R213: on an implementation with any number of lanes, every schedule that
visits each position once, in any order, any number at a time, assembles the same output as the transaction, whatever
the output buffer held before; for BPDECOMPOSE every plane is the same too. The claim is about Images the
implementation's sequencer accepts (93_implementation_defined.md U10). How a schedule runs, `runSchedule`, is the model's
reading: a batch is its positions one after another, since lanes share nothing (DEDUCED, log entry 18). -/
def Obligations.EveryScheduleGivesTheSameImage : Prop :=
  ∀ (cfg : Config) (schedule : List (List Nat)) (buffer : List Sample), 1 ≤ cfg.lanes →
    (∀ (source : Image) (n : PField), Accepts cfg source.shape → 1 ≤ n.toNat → n.toNat ≤ 8 →
      IsSchedule cfg source.shape.size schedule → buffer.length = source.shape.size →
      ∃ out, imageResult (.extract source n.toNat) = some out ∧
        runSchedule (extractWords source n) 0 schedule buffer = out.samples) ∧
    (∀ (stack needle : Image) (n : PField), Accepts cfg stack.shape → stack.shape = needle.shape →
      1 ≤ n.toNat → n.toNat ≤ 8 →
      IsSchedule cfg stack.shape.size schedule → buffer.length = stack.shape.size →
      ∃ out, imageResult (.embed stack needle n.toNat) = some out ∧
        runSchedule (embedWords stack needle n) 0 schedule buffer = out.samples) ∧
    (∀ source : Image, Accepts cfg source.shape →
      IsSchedule cfg source.shape.size schedule → buffer.length = source.shape.size →
      ∃ outs, planesResult (.bpdecompose source) = some outs ∧
        ∀ i : BitIndex, runSchedule (bpdecomposeWords source) i schedule buffer = outs[i].samples)

/-! ## The machine -/

/-- 10_state.md R20: one step takes one request, the oldest of the model's list of waiting requests (DESIGN CHOICE, log
entry 1), and runs the operation it decodes to. The other two clauses are the model's own: where no request is presented
the step changes nothing (its reading of 60_exceptions.md R208, DEDUCED, log entry 3), and `withFetchWord` puts a word
before all pending requests, so that the next step runs it (DEDUCED, log entry 12). -/
def Obligations.StepRunsTheDecodedRequest : Prop :=
  (∀ (s : State) (q : Request) (rest : List Request), s.pending = q :: rest →
    step s = exec (decode q) { s with pending := rest, accepted := s.accepted ++ [q] }) ∧
  (∀ s : State, s.pending = [] → step s = .next s) ∧
  (∀ (s : State) (w : OpWord),
    step (s.withFetchWord 24 w.toNat) = exec (decodeWord w) { s with accepted := s.accepted ++ [.word w] })

/-- 20_memory.md R48, 10_state.md R26: the frame of every operation. It adds one response; the requests still pending,
the requests taken and every earlier response stay as they were. -/
def Obligations.OperationsAddOneResponseOnly : Prop :=
  ∀ (i : Instr) (s t : State), exec i s = .next t →
    t.pending = s.pending ∧ t.accepted = s.accepted ∧
    t.responses.length = s.responses.length + 1 ∧ t.responses.take s.responses.length = s.responses

/-- 10_state.md R27: the same request always gives the same response, whatever came before it: in any two states that
have it as their next request, and as the response to it alone. -/
def Obligations.ResponseDependsOnTheRequestOnly : Prop :=
  ∀ (q : Request) (s s' : State) (rest rest' : List Request), s.pending = q :: rest → s'.pending = q :: rest' →
    ∃ r, answer q = some r ∧
      step s = .next { pending := rest, accepted := s.accepted ++ [q], responses := s.responses ++ [r] } ∧
      step s' = .next { pending := rest', accepted := s'.accepted ++ [q], responses := s'.responses ++ [r] }

/-- 70_reset_and_hazards.md R230, R233: after reset the unit answers the first request, any request, exactly as it would
answer it at any other time; no initialisation comes first. That nothing else is pending and no earlier response stands
beside it (`t.pending = []`, `t.responses = [r]`) rests on the empty lists of `State.reset`, the model's choice (DESIGN
CHOICE, log entry 2). -/
def Obligations.FirstRequestAfterResetIsAnsweredAsAnyOther : Prop :=
  ∀ (q : Request) (s : State) (rest : List Request), s.pending = q :: rest → ∃ (r : Response) (t u : State),
    step (State.reset.present q) = .next t ∧ t.pending = [] ∧ t.responses = [r] ∧
    step s = .next u ∧ u.responses = s.responses ++ [r]

/-- The model lets the host present more requests at any time, which wait in a list (DESIGN CHOICE, log entry 1; not said
by 10_state.md R20, which says only that the host presents requests). What is answered meanwhile is not affected, and the
new request waits its turn, as the order of 20_memory.md R49 (c) asks. -/
def Obligations.PresentingARequestDisturbsNothing : Prop :=
  ∀ (s t : State) (q : Request), s.pending ≠ [] → step s = .next t →
    step (s.present q) = .next (t.present q)

/-- Every step keeps the transcript correct: each response given is the one the rules give the request it answers
(computed in natural numbers, without the machine's decoder or formulas), in the order of the requests. The transcript
is the model's record (DESIGN CHOICE, log entry 1), and a step with no request pending keeps it as log entry 3 says. -/
def Obligations.EveryStepKeepsTheTranscriptCorrect : Prop :=
  ∀ s t : State, Safety.Inv s → step s = .next t → Safety.Inv t

/-- The transcript of the state after reset is correct (it is empty, DESIGN CHOICE of the model, log entry 2). -/
def Obligations.ResetTranscriptIsCorrect : Prop :=
  Safety.Inv State.reset ∧ State.reset.pending = [] ∧ State.reset.responses = []

/-- 20_memory.md R49 (c), 60_exceptions.md R214: any number of steps, from any state: the first `k` requests presented are
answered, in order, the `k`-th response belonging to the `k`-th request and being the one the rules give it; the rest
wait, and nothing else changes. That requests wait in a list, one taken a step, is the model's choice (DESIGN CHOICE, log
entry 1). -/
def Obligations.RunAnswersEveryRequestInOrder : Prop :=
  ∀ (s : State) (k : Nat), k ≤ s.pending.length →
    Host.Core.run Sys2Proof.core k s =
      .next ({ pending := s.pending.drop k, accepted := s.accepted ++ s.pending.take k,
               responses := s.responses ++ (s.pending.take k).map Safety.expected } : State)

/-- 00_scope.md R6, 42_extract.md R142: what an `n`-bit transfer discards is gone. Two needles that agree in their high
`n` bits at every position, in whatever stacks, are recovered as the same Image. -/
def Obligations.RecoveredImageForgetsTheLowBits : Prop :=
  ∀ (stack stack' needle needle' : Image) (n : Nat), 1 ≤ n → n ≤ 8 →
    stack.shape = needle.shape → stack'.shape = needle'.shape → needle.shape = needle'.shape →
    needle.samples.map (fun v : Sample => v >>> (8 - n)) = needle'.samples.map (fun v : Sample => v >>> (8 - n)) →
    ∃ x x' y : Image, imageResult (.embed stack needle n) = some x ∧ imageResult (.embed stack' needle' n) = some x' ∧
      imageResult (.extract x n) = some y ∧ imageResult (.extract x' n) = some y
end

