-- ==== Sys2Proof/Laws/Decode.lean ====
section
/-! SUPPORT. Every bit of a packed word, and its fields read back. -/

namespace Sys2Proof

/-- Every bit of `OPW = {OP, P, B, A}` (30_encoding.md R60). -/
theorem getLsbD_packWord (op : OpField) (p : PField) (b a : Sample) (k : Nat) :
    (packWord op p b a).getLsbD k =
      if k < 8 then a.getLsbD k else if k < 16 then b.getLsbD (k - 8)
      else if k < 20 then p.getLsbD (k - 16) else op.getLsbD (k - 20) := by
  change BitVec.getLsbD (w := 2 + 4 + 8 + 8) (op ++ p ++ b ++ a) k = _
  simp only [BitVec.getLsbD_append]
  by_cases h8 : k < 8
  · simp [h8]
  · by_cases h16 : k < 16
    · simp [h8, h16, show k - 8 < 8 by omega]
    · by_cases h20 : k < 20
      · simp [h8, h16, h20, show ¬k - 8 < 8 by omega, show k - 8 - 8 = k - 16 by omega, show k - 16 < 4 by omega]
      · simp [h8, h16, h20, show ¬k - 8 < 8 by omega, show ¬k - 8 - 8 < 4 by omega, show k - 8 - 8 - 4 = k - 20 by omega]

@[simp] theorem opField_packWord (op : OpField) (p : PField) (b a : Sample) : opField (packWord op p b a) = op := by
  apply BitVec.eq_of_getLsbD_eq
  intro k hk
  simp [opField, getLsbD_packWord, hk, show ¬20 + k < 8 by omega, show ¬20 + k < 16 by omega]

@[simp] theorem pField_packWord (op : OpField) (p : PField) (b a : Sample) : pField (packWord op p b a) = p := by
  apply BitVec.eq_of_getLsbD_eq
  intro k hk
  simp [pField, getLsbD_packWord, hk, show ¬16 + k < 8 by omega, show 16 + k < 20 by omega]

@[simp] theorem bField_packWord (op : OpField) (p : PField) (b a : Sample) : bField (packWord op p b a) = b := by
  apply BitVec.eq_of_getLsbD_eq
  intro k hk
  simp [bField, getLsbD_packWord, hk, show 8 + k < 16 by omega]

@[simp] theorem aField_packWord (op : OpField) (p : PField) (b a : Sample) : aField (packWord op p b a) = a := by
  apply BitVec.eq_of_getLsbD_eq
  intro k hk
  simp [aField, getLsbD_packWord, hk]

end Sys2Proof
end

