-- ==== Sys2Proof/Laws/Operands.lean ====
section
/-! SUPPORT. The operand checks and the Image operand forms, each said once. -/

namespace Sys2Proof

theorem bitWidth?_of_legal {n : Nat} (h : 1 ≤ n ∧ n ≤ 8) : bitWidth? n = some ⟨n, h⟩ := by
  simp [bitWidth?, h]

theorem bitWidth?_of_illegal {n : Nat} (h : ¬(1 ≤ n ∧ n ≤ 8)) : bitWidth? n = none := by
  simp only [bitWidth?, dif_neg h]

theorem bitIndex?_of_legal {i : Nat} (h : i < 8) : bitIndex? i = some ⟨i, h⟩ := by
  simp [bitIndex?, h]

theorem bitIndex?_of_illegal {i : Nat} (h : ¬i < 8) : bitIndex? i = none := by
  simp only [bitIndex?, dif_neg h]

theorem Shape.contains_iff (sh : Shape) (row col c : Nat) :
    sh.contains row col c = true ↔ row < sh.rows ∧ col < sh.cols ∧ c < sh.ch := by
  simp [Shape.contains, and_assoc]

/-- Images are equal when their shapes and their Samples are. -/
theorem Image.eq_of_samples {a b : Image} (hs : a.shape = b.shape) (h : a.samples = b.samples) : a = b := by
  cases a; cases b; simp_all

@[simp] theorem Image.mapSamples_shape (f : Sample → Sample) (img : Image) : (img.mapSamples f).shape = img.shape := rfl
@[simp] theorem Image.mapSamples_samples (f : Sample → Sample) (img : Image) :
    (img.mapSamples f).samples = img.samples.map f := rfl

@[simp] theorem Image.zipSamples_shape (f : Sample → Sample → Sample) (a b : Image) (h : a.shape = b.shape) :
    (a.zipSamples f b h).shape = a.shape := rfl
@[simp] theorem Image.zipSamples_samples (f : Sample → Sample → Sample) (a b : Image) (h : a.shape = b.shape) :
    (a.zipSamples f b h).samples = List.zipWith f a.samples b.samples := rfl

/-- A pointwise map at a position is the function of the Sample at that position. -/
theorem Image.sampleAt?_mapSamples (f : Sample → Sample) (img : Image) (row col c : Nat) :
    (img.mapSamples f).sampleAt? row col c = (img.sampleAt? row col c).map f := by
  unfold Image.sampleAt?
  by_cases h : img.shape.contains row col c = true <;> simp [h]

/-- A pointwise map of two Images at a position is the function of their two Samples at that position. -/
theorem Image.sampleAt?_zipSamples (f : Sample → Sample → Sample) (a b : Image) (h : a.shape = b.shape)
    (row col c : Nat) :
    (a.zipSamples f b h).sampleAt? row col c =
      (a.sampleAt? row col c).bind fun x => (b.sampleAt? row col c).map fun y => f x y := by
  unfold Image.sampleAt?
  by_cases hc : a.shape.contains row col c = true
  · simp only [Image.zipSamples_shape, Image.zipSamples_samples, hc, if_true, ← h, List.getElem?_zipWith]
    cases a.samples[a.shape.flat row col c]? <;> cases b.samples[a.shape.flat row col c]? <;> rfl
  · simp [hc]

end Sys2Proof
end

