-- ==== Sys2Proof/Laws/State.lean ====
section
/-! SUPPORT. The state's fields after each update of it, and what fetching can do. -/

namespace Sys2Proof.Machine

@[simp] theorem State.respond_pending (s : State) (r : Response) : (s.respond r).pending = s.pending := rfl
@[simp] theorem State.respond_accepted (s : State) (r : Response) : (s.respond r).accepted = s.accepted := rfl
@[simp] theorem State.respond_responses (s : State) (r : Response) :
    (s.respond r).responses = s.responses ++ [r] := rfl

@[simp] theorem State.present_pending (s : State) (q : Request) : (s.present q).pending = s.pending ++ [q] := rfl
@[simp] theorem State.present_accepted (s : State) (q : Request) : (s.present q).accepted = s.accepted := rfl
@[simp] theorem State.present_responses (s : State) (q : Request) : (s.present q).responses = s.responses := rfl

@[simp] theorem State.reset_pending : State.reset.pending = [] := rfl
@[simp] theorem State.reset_accepted : State.reset.accepted = [] := rfl
@[simp] theorem State.reset_responses : State.reset.responses = [] := rfl

/-- Everything fetching can do: with no request presented it takes none; otherwise it takes the oldest, moves it to the
accepted ones, and changes nothing else. -/
theorem fetch_cases (s : State) :
    (s.pending = [] ∧ fetch s = none) ∨
    (∃ q rest, s.pending = q :: rest ∧
      fetch s = some (q, { s with pending := rest, accepted := s.accepted ++ [q] })) := by
  cases h : s.pending with
  | nil => exact .inl ⟨rfl, by simp [fetch, h]⟩
  | cons q rest => exact .inr ⟨q, rest, rfl, by simp [fetch, h]⟩

end Sys2Proof.Machine
end

