-- ==== Sys2Proof/Laws/Ops.lean ====
section
/-! SUPPORT. One lemma per datapath formula, saying every bit of it; the result bus read back; the guards. -/

namespace Sys2Proof

theorem getLsbD_mask (n : BitWidth) (k : Nat) : (mask n).getLsbD k = decide (k < n.val) := by
  obtain ⟨n, h1, h8⟩ := n
  simp only [mask, BitVec.getLsbD_ushiftRight]
  have key : ∀ j, (0xFF#8).getLsbD j = decide (j < 8) := by
    intro j
    by_cases hj : j < 8
    · interval_cases j <;> rfl
    · simp [hj, BitVec.getLsbD_of_ge _ _ (Nat.le_of_not_lt hj)]
  rw [key]
  congr 1
  apply propext
  omega

theorem getLsbD_promoteSample (v : Sample) (n : BitWidth) (k : Nat) (hk : k < 8) :
    (promoteSample v n).getLsbD k = (decide (8 - n.val ≤ k) && v.getLsbD (k - (8 - n.val))) := by
  obtain ⟨n, h1, h8⟩ := n
  simp only [promoteSample, BitVec.getLsbD_shiftLeft, BitVec.getLsbD_and, getLsbD_mask, hk]
  by_cases h : 8 - n ≤ k
  · have : k - (8 - n) < n := by omega
    simp [h, this]
  · simp [h, Nat.lt_of_not_le h]

theorem getLsbD_isolateSample (v : Sample) (i : BitIndex) (k : Nat) :
    (isolateSample v i).getLsbD k = (decide (k = 7) && v.getLsbD i.val) := by
  obtain ⟨i, hi⟩ := i
  have one : ∀ j, (1#8).getLsbD j = decide (j = 0) := by
    intro j
    by_cases hj : j < 8
    · interval_cases j <;> rfl
    · simp [BitVec.getLsbD_of_ge _ _ (Nat.le_of_not_lt hj), show j ≠ 0 by omega]
  simp only [isolateSample, BitVec.getLsbD_shiftLeft, BitVec.getLsbD_and, one]
  by_cases h : k = 7
  · subst h
    simp [show 7 - (7 - i) = i by omega, hi]
  · by_cases hk : k < 8
    · by_cases h7 : k < 7 - i
      · simp [h7, h]
      · by_cases he : k - (7 - i) < i
        · simp [he, h]
        · have : k - (7 - i) - i ≠ 0 := by omega
          simp [this, h]
    · simp [hk, h]

/-- A plane is `0x80` where the bit is set and `0x00` where it is not (40_bitplaneshift.md R102). -/
theorem isolateSample_eq (v : Sample) (i : BitIndex) :
    isolateSample v i = if v.getLsbD i.val then 0x80#8 else 0x00#8 := by
  apply BitVec.eq_of_getLsbD_eq
  intro k hk
  rw [getLsbD_isolateSample]
  cases v.getLsbD i.val <;> interval_cases k <;> rfl

theorem getLsbD_transplantSample (dst src : Sample) (n : BitWidth) (k : Nat) (hk : k < 8) :
    (transplantSample dst src n).getLsbD k =
      if k < n.val then src.getLsbD (k + (8 - n.val)) else dst.getLsbD k := by
  obtain ⟨n, h1, h8⟩ := n
  simp only [transplantSample, BitVec.getLsbD_or, BitVec.getLsbD_and, BitVec.getLsbD_not, BitVec.getLsbD_ushiftRight,
    getLsbD_mask, hk]
  by_cases h : k < n
  · simp [h, Nat.add_comm]
  · have : src.getLsbD (8 - n + k) = false := BitVec.getLsbD_of_ge _ _ (by omega)
    simp [h, this]

/-- The bus of an 8-bit result has that result's value: `R[63:8] = 0` (30_encoding.md R71). -/
theorem sampleBus_eq_ofNat (y : Sample) : sampleBus y = BitVec.ofNat 64 y.toNat := by
  apply BitVec.eq_of_toNat_eq
  simp [sampleBus]

@[simp] theorem busByte_sampleBus (y : Sample) : busByte (sampleBus y) 0 = y := by
  apply BitVec.eq_of_getLsbD_eq
  intro k hk
  simp [busByte, sampleBus, hk, show k < 64 by omega]

/-- Byte `i` of a plane bus is plane `i` (30_encoding.md R72). -/
@[simp] theorem busByte_planeBus (plane : BitIndex → Sample) (i : BitIndex) : busByte (planeBus plane) i = plane i := by
  apply BitVec.eq_of_getLsbD_eq
  intro k hk
  rw [busByte, BitVec.getLsbD_extractLsb']
  change (decide (k < 8) && BitVec.getLsbD (w := 8 + 8 + 8 + 8 + 8 + 8 + 8 + 8)
    (plane 7 ++ plane 6 ++ plane 5 ++ plane 4 ++ plane 3 ++ plane 2 ++ plane 1 ++ plane 0) (8 * i.val + k)) = _
  simp only [BitVec.getLsbD_append, hk, decide_true, Bool.true_and]
  fin_cases i <;> interval_cases k <;> rfl

namespace Machine

theorem withBitWidth_of_legal {n : Nat} (h : 1 ≤ n ∧ n ≤ 8) (s : State)
    (answer : BitWidth → Host.Outcome State Fault Refusal) : withBitWidth n s answer = answer ⟨n, h⟩ := by
  simp [withBitWidth, bitWidth?_of_legal h]

theorem withBitWidth_of_illegal {n : Nat} (h : ¬(1 ≤ n ∧ n ≤ 8)) (s : State)
    (answer : BitWidth → Host.Outcome State Fault Refusal) :
    withBitWidth n s answer = raise (.invalidBitWidth n) s := by
  simp [withBitWidth, bitWidth?_of_illegal h]

theorem withBitIndex_of_legal {i : Nat} (h : i < 8) (s : State)
    (answer : BitIndex → Host.Outcome State Fault Refusal) : withBitIndex i s answer = answer ⟨i, h⟩ := by
  simp [withBitIndex, bitIndex?_of_legal h]

theorem withBitIndex_of_illegal {i : Nat} (h : ¬i < 8) (s : State)
    (answer : BitIndex → Host.Outcome State Fault Refusal) :
    withBitIndex i s answer = raise (.invalidBitIndex i) s := by
  simp [withBitIndex, bitIndex?_of_illegal h]

end Machine

end Sys2Proof
end

