-- ==== Sys2Proof/Laws/PerInstr.lean ====
section
/-! SUPPORT. One family of statements per instruction: the word an instruction is encoded to has zero in every field its
operation ignores (30_encoding.md R65, R75). -/

namespace Sys2Proof.Laws.CanonicalEncoding

/-- Where `i` has an operation word, that word has `B = 0` unless it is a TRANSPLANT's and `P = 0` if it is a
DECOMPOSE's. -/
def Statement (i : Instr) : Prop :=
  ∀ w, encode i = .word w → (opField w ≠ 0b10#2 → bField w = 0#8) ∧ (opField w = 0b11#2 → pField w = 0#4)

theorem promote (v : Sample) (n : PField) : Statement (.promote v n) := by
  intro w h
  cases h
  simp

theorem isolate (v : Sample) (i : PField) : Statement (.isolate v i) := by
  intro w h
  cases h
  simp

theorem transplant (dst src : Sample) (n : PField) : Statement (.transplant dst src n) := by
  intro w h
  cases h
  simp

theorem decompose (v : Sample) : Statement (.decompose v) := by
  intro w h
  cases h
  simp

theorem extract (source : Image) (n : Nat) : Statement (.extract source n) := nofun

theorem embed (stack needle : Image) (n : Nat) : Statement (.embed stack needle n) := nofun

theorem bpdecompose (source : Image) : Statement (.bpdecompose source) := nofun

end Sys2Proof.Laws.CanonicalEncoding
end

