-- ==== Sys2Proof/Tests/Slice0.lean ====
section
/-! SUPPORT. Tests, their expected values taken from 95_test_vectors.md (the vector is named at each), and a witness for
every obligation that has hypotheses. -/

namespace Sys2Proof.Tests

open Sys2Proof.Machine

/-- The 1 x 1 x 1 Image of one Sample. -/
def pixel (v : Sample) : Image := { shape := ⟨1, 1, 1⟩, samples := [v], complete := rfl }

/-- The empty Image of shape `(0, cols, 3)`. -/
def emptyImage (cols : Nat) : Image := { shape := ⟨0, cols, 3⟩, samples := [], complete := by simp [Shape.size] }

/-- The Images of program P1. -/
def stackP1 : Image :=
  { shape := ⟨1, 2, 3⟩, samples := [0xF0#8, 0x12#8, 0xFF#8, 0x00#8, 0x87#8, 0x65#8], complete := rfl }
def needleP1 : Image :=
  { shape := ⟨1, 2, 3⟩, samples := [0xAA#8, 0xFF#8, 0x00#8, 0xC3#8, 0x7F#8, 0x80#8], complete := rfl }
/-- The needle of program P4: the same six Samples in another shape. -/
def needleP4 : Image :=
  { shape := ⟨2, 1, 3⟩, samples := [0xAA#8, 0xFF#8, 0x00#8, 0xC3#8, 0x7F#8, 0x80#8], complete := rfl }

/-- A state with these requests pending. -/
def presented (qs : List Request) : State := { State.reset with pending := qs }

/-- The responses after `k` steps of the machine. -/
def responsesAfter (k : Nat) (s : State) : Option (List Response) :=
  match Host.Core.run Sys2Proof.core k s with
  | .next t => some t.responses
  | .fault _ => none
  | .refused _ => none

/-! ## Well-formedness: an ill-formed term for each check -/

theorem test_wellFormed_refuses_promote_zero : wellFormed (.promote 0xFA#8 0#4) = false := by decide
theorem test_wellFormed_refuses_promote_nine : wellFormed (.promote 0xFA#8 9#4) = false := by decide
theorem test_wellFormed_refuses_isolate_eight : wellFormed (.isolate 0xFF#8 8#4) = false := by decide
theorem test_wellFormed_refuses_transplant_zero : wellFormed (.transplant 0xF0#8 0xAA#8 0#4) = false := by decide
theorem test_wellFormed_refuses_transplant_twelve : wellFormed (.transplant 0xF0#8 0xAA#8 12#4) = false := by decide
theorem test_wellFormed_refuses_extract_zero : wellFormed (.extract (pixel 0xFA#8) 0) = false := by decide
theorem test_wellFormed_refuses_embed_nine : wellFormed (.embed (pixel 0xF0#8) (pixel 0xAA#8) 9) = false := by decide
theorem test_wellFormed_refuses_embed_shapes : wellFormed (.embed stackP1 needleP4 4) = false := by decide
theorem test_wellFormed_accepts_boundaries :
    wellFormed (.promote 0#8 1#4) = true ∧ wellFormed (.promote 0#8 8#4) = true ∧
    wellFormed (.isolate 0#8 0#4) = true ∧ wellFormed (.isolate 0#8 7#4) = true ∧
    wellFormed (.decompose 0#8) = true ∧ wellFormed (.embed stackP1 needleP1 8) = true ∧
    wellFormed (.bpdecompose (emptyImage 5)) = true := by decide

/-! ## Decoding: each word written out bit by bit from 30_encoding.md R60, R61 as OP, P, B, A -/

/-- V25: `B = 0x77` is ignored. -/
theorem test_decode_promote : decodeWord 0b00_0100_01110111_11111010#22 = .promote 0xFA#8 4#4 := by decide
/-- V54. -/
theorem test_decode_isolate : decodeWord 0b01_0111_11111111_10000000#22 = .isolate 0x80#8 7#4 := by decide
/-- V65: `dst` is in `A`, `src` in `B`. -/
theorem test_decode_transplant : decodeWord 0b10_1000_00110100_00010010#22 = .transplant 0x12#8 0x34#8 8#4 := by decide
/-- V7A: `P` and `B` are ignored. -/
theorem test_decode_decompose : decodeWord 0b11_1111_11111111_10100101#22 = .decompose 0xA5#8 := by decide
theorem test_decode_extract : decode (.extract (pixel 0xFA#8) 4) = .extract (pixel 0xFA#8) 4 := by decide
theorem test_decode_embed :
    decode (.embed (pixel 0xF0#8) (pixel 0xAA#8) 4) = .embed (pixel 0xF0#8) (pixel 0xAA#8) 4 := by decide
theorem test_decode_bpdecompose : decode (.bpdecompose (pixel 0xA5#8)) = .bpdecompose (pixel 0xA5#8) := by decide
/-- V60's word, as the host numbers an opcode-table word. -/
theorem test_decodeTableWord : decodeTableWord 24 0x24AAF0 = some (.transplant 0xF0#8 0xAA#8 4#4) := by decide
/-- A number of 23 bits is no operation word (R68). -/
theorem test_decode_refuses_23_bits : decodeTableWord 24 0x400000 = none := by decide
/-- 30_encoding.md R73: `PROMOTE 250, 4` is `{0b00, 4, 0x00, 250}` (V2). -/
theorem test_encode_promote : encode (.promote 0xFA#8 4#4) = .word 0x0400FA#22 := by decide
theorem test_encode_transplant : encode (.transplant 0xF0#8 0xAA#8 4#4) = .word 0x24AAF0#22 := by decide

/-! ## Each instruction, one step after reset -/

/-- V20. -/
theorem test_promote : answer (.word 0x07007F#22) = some (.result 0xFE#64) := by decide
/-- V81. -/
theorem test_promote_nine : answer (.word 0x0900FA#22) = some (.error (.invalidBitWidth 9)) := by decide
/-- V46: bit 7 does not leak into plane 6; V52. -/
theorem test_isolate :
    answer (.word 0x160080#22) = some (.result 0#64) ∧ answer (.word 0x140010#22) = some (.result 0x80#64) := by decide
/-- V83. -/
theorem test_isolate_eight : answer (.word 0x1800FF#22) = some (.error (.invalidBitIndex 8)) := by decide
/-- V69. -/
theorem test_transplant : answer (.word 0x22C33C#22) = some (.result 0x3F#64) := by decide
/-- V85. -/
theorem test_transplant_zero : answer (.word 0x20AAF0#22) = some (.error (.invalidBitWidth 0)) := by decide
/-- V79. -/
theorem test_decompose : answer (.word 0x3000FA#22) = some (.result 0x8080808080008000#64) := by decide
/-- V77. -/
theorem test_decompose_low : answer (.word 0x30000F#22) = some (.result 0x0000000080808080#64) := by decide
/-- V91. -/
theorem test_extract : answer (.extract (pixel 0xFA#8) 4) = some (.image (pixel 0xA0#8)) := by decide
/-- V96. -/
theorem test_extract_zero : answer (.extract (pixel 0xFA#8) 0) = some (.error (.invalidBitWidth 0)) := by decide
/-- P1, step 1. -/
theorem test_embed : (imageResult (.embed stackP1 needleP1 4)).map Image.samples =
    some [0xFA#8, 0x1F#8, 0xF0#8, 0x0C#8, 0x87#8, 0x68#8] := by decide
/-- V98: no Sample anywhere, and still a mismatch; V94: the width is checked first. -/
theorem test_embed_errors :
    answer (.embed (emptyImage 5) (emptyImage 4) 4) = some (.error (.shapeMismatch ⟨0, 5, 3⟩ ⟨0, 4, 3⟩)) ∧
    answer (.embed stackP1 needleP4 0) = some (.error (.invalidBitWidth 0)) := by decide
/-- V9A. -/
theorem test_bpdecompose : answer (.bpdecompose (pixel 0xA5#8)) = some (.planes
    #v[pixel 0x80#8, pixel 0#8, pixel 0x80#8, pixel 0#8, pixel 0#8, pixel 0x80#8, pixel 0#8, pixel 0x80#8]) := by decide
/-- P4, its first four words: an error between two equal words changes neither answer. -/
theorem test_errors_leave_nothing_behind :
    responsesAfter 4 (presented [.word 0x0400FA#22, .word 0x0000FA#22, .word 0x1800FF#22, .word 0x0400FA#22]) =
      some [.result 0xA0#64, .error (.invalidBitWidth 0), .error (.invalidBitIndex 8), .result 0xA0#64] := by decide
/-- A step runs the word `withFetchWord` presents, as the first instruction after reset (V80's word has all fields but
`A` zero). -/
theorem test_withFetchWord : step (State.reset.withFetchWord 24 0x0000FA) =
    .next { pending := [], accepted := [.word 0x0000FA#22], responses := [.error (.invalidBitWidth 0)] } := rfl
/-- 60_exceptions.md R200: the codes. -/
theorem test_error_codes : responseCode (.error (.invalidBitWidth 0)) = 1#2 ∧
    responseCode (.error (.invalidBitIndex 8)) = 2#2 ∧
    responseCode (.error (.shapeMismatch ⟨1, 2, 3⟩ ⟨2, 1, 3⟩)) = 3#2 ∧ responseCode (.result 0#64) = 0#2 := by decide

/-! ## The assembler -/

/-- V1's spelling. -/
theorem test_assemble_transplant :
    ((parseSample ['T', 'R', 'A', 'N', 'S', 'P', 'L', 'A', 'N', 'T', ' ', '2', '4', '0', ',', ' ', '0', 'x', 'A', 'a',
      ',', ' ', '0', 'b', '1', '0', '0']).bind assemble) = some 0x24AAF0#22 := by decide
/-- `PROMOTE 250, 9` is refused (R73). -/
theorem test_assemble_refuses :
    ((parseSample ['P', 'R', 'O', 'M', 'O', 'T', 'E', ' ', '2', '5', '0', ',', ' ', '9']).bind assemble) = none := by
  decide
/-- `EXTRACT y, x, 4` with `x` a name of the host's. -/
theorem test_parse_extract :
    parseFrame [(['x'], pixel 0xFA#8)] ['E', 'X', 'T', 'R', 'A', 'C', 'T', ' ', 'y', ',', ' ', 'x', ',', ' ', '4'] =
      some (.extract (pixel 0xFA#8) 4) := by decide
/-- V7A's word: the ignored fields are commented on (R75). -/
theorem test_disassemble : disassemble 0x3FFFA5#22 = (.decompose 0xA5#8, [.p 0xF#4, .b 0xFF#8]) := by decide

/-! ## Witnesses: concrete states and operands that meet the hypotheses of each obligation, each clause at a boundary -/

theorem witness_DecodeFollowsItsTableOnEveryWord :
    (opField 0x0100FA#22 = 0b00#2 ∧ 1 ≤ (pField 0x0100FA#22).toNat ∧ (pField 0x0100FA#22).toNat ≤ 8) ∧
    (opField 0x0900FA#22 = 0b00#2 ∧ ¬(1 ≤ (pField 0x0900FA#22).toNat ∧ (pField 0x0900FA#22).toNat ≤ 8)) ∧
    (opField 0x1700FF#22 = 0b01#2 ∧ (pField 0x1700FF#22).toNat ≤ 7) ∧
    (opField 0x1800FF#22 = 0b01#2 ∧ ¬(pField 0x1800FF#22).toNat ≤ 7) ∧
    (opField 0x28AAF0#22 = 0b10#2 ∧ 1 ≤ (pField 0x28AAF0#22).toNat ∧ (pField 0x28AAF0#22).toNat ≤ 8) ∧
    (opField 0x20AAF0#22 = 0b10#2 ∧ ¬(1 ≤ (pField 0x20AAF0#22).toNat ∧ (pField 0x20AAF0#22).toNat ≤ 8)) ∧
    opField 0x3FFFFF#22 = 0b11#2 := by decide

theorem witness_EncodeOfDecodeZeroesIgnoredFields :
    (opField 0x2FFFFF#22 ≠ 0b11#2 ∧ opField 0x2FFFFF#22 = 0b10#2) ∧
    (opField 0x3FFFFF#22 = 0b11#2 ∧ opField 0x3FFFFF#22 ≠ 0b10#2) := by decide

theorem witness_IgnoredFieldsDoNotMatter :
    (opField 0x0400FA#22 = opField 0x0477FA#22 ∧ aField 0x0400FA#22 = aField 0x0477FA#22 ∧
      (opField 0x0400FA#22 ≠ 0b11#2 → pField 0x0400FA#22 = pField 0x0477FA#22) ∧
      (opField 0x0400FA#22 = 0b10#2 → bField 0x0400FA#22 = bField 0x0477FA#22)) ∧
    (opField 0x3000A5#22 = opField 0x3FFFA5#22 ∧ aField 0x3000A5#22 = aField 0x3FFFA5#22 ∧
      (opField 0x3000A5#22 ≠ 0b11#2 → pField 0x3000A5#22 = pField 0x3FFFA5#22) ∧
      (opField 0x3000A5#22 = 0b10#2 → bField 0x3000A5#22 = bField 0x3FFFA5#22)) ∧
    (assemble (.decompose 0xA5#8) = some 0x3000A5#22 ∧ opField 0x3000A5#22 ≠ 0b10#2 ∧
      opField 0x3000A5#22 = 0b11#2) := by decide

theorem witness_ExactlyThe22BitNumbersDecode : (0x3FFFFF : Nat) < 2 ^ 22 ∧ 2 ^ 22 ≤ (0x400000 : Nat) := by decide

theorem witness_PromoteResult :
    (1 ≤ (1#4).toNat ∧ (1#4).toNat ≤ 8) ∧ (1 ≤ (8#4).toNat ∧ (8#4).toNat ≤ 8) ∧
    ((0#4).toNat < 1 ∨ 8 < (0#4).toNat) ∧ ((9#4).toNat < 1 ∨ 8 < (9#4).toNat) := by decide

theorem witness_IsolateResult : (7#4).toNat ≤ 7 ∧ (0#4).toNat ≤ 7 ∧ 7 < (8#4).toNat := by decide

theorem witness_TransplantResult :
    (1 ≤ (1#4).toNat ∧ (1#4).toNat ≤ 8) ∧ (1 ≤ (8#4).toNat ∧ (8#4).toNat ≤ 8) ∧
    ((0#4).toNat < 1 ∨ 8 < (0#4).toNat) ∧ ((9#4).toNat < 1 ∨ 8 < (9#4).toNat) := by decide

theorem witness_ExtractResult :
    ((1 : Nat) ≤ 8 ∧ (8 : Nat) ≤ 8 ∧ 0 < (pixel 0xFA#8).shape.rows ∧ 0 < (pixel 0xFA#8).shape.cols ∧
      0 < (pixel 0xFA#8).shape.ch) ∧ ((0 : Nat) < 1 ∨ 8 < (0 : Nat)) ∧ ((9 : Nat) < 1 ∨ 8 < (9 : Nat)) := by decide

theorem witness_EmbedResult :
    ((1 : Nat) ≤ 8 ∧ (8 : Nat) ≤ 8 ∧ stackP1.shape = needleP1.shape ∧ 0 < stackP1.shape.rows ∧
      1 < stackP1.shape.cols ∧ 2 < stackP1.shape.ch) ∧
    ((0 : Nat) < 1 ∨ 8 < (0 : Nat)) ∧ ((9 : Nat) < 1 ∨ 8 < (9 : Nat)) ∧
    ((1 : Nat) ≤ 1 ∧ (1 : Nat) ≤ 8 ∧ stackP1.shape ≠ needleP4.shape) := by decide

theorem witness_BpdecomposeResult :
    0 < stackP1.shape.rows ∧ 1 < stackP1.shape.cols ∧ 2 < stackP1.shape.ch := by decide

theorem witness_MaskBits : (0 : Nat) < 8 ∧ (7 : Nat) < 8 := by decide

theorem witness_UnboundedFormulasAgreeWithEightBits :
    (1 ≤ (8#4).toNat ∧ (8#4).toNat ≤ 8) ∧ (7#4).toNat ≤ 7 ∧ (1 ≤ (1#4).toNat ∧ (1#4).toNat ≤ 8) := by decide

theorem witness_IllegalWidthRaisesInvalidBitWidth :
    ((0#4) = 0#4 ∨ 9 ≤ (0#4).toNat) ∧ ((9#4) = 0#4 ∨ 9 ≤ (9#4).toNat) ∧
    ((0 : Nat) = 0 ∨ 9 ≤ (0 : Nat)) ∧ ((9 : Nat) = 0 ∨ 9 ≤ (9 : Nat)) := by decide

theorem witness_IllegalIndexRaisesInvalidBitIndex : 8 ≤ (8#4).toNat := by decide

theorem witness_AnyShapeDifferenceRaisesShapeMismatch : (1 : Nat) ≤ 8 ∧ (8 : Nat) ≤ 8 ∧
    (stackP1.shape.rows ≠ needleP4.shape.rows ∨ stackP1.shape.cols ≠ needleP4.shape.cols ∨
      stackP1.shape.ch ≠ needleP4.shape.ch) ∧
    ((emptyImage 5).shape.rows ≠ (emptyImage 4).shape.rows ∨ (emptyImage 5).shape.cols ≠ (emptyImage 4).shape.cols ∨
      (emptyImage 5).shape.ch ≠ (emptyImage 4).shape.ch) := by decide

theorem witness_AnErrorLeavesNothingBehind :
    (presented [.word 0x0000FA#22, .word 0x0400FA#22]).pending = [.word 0x0000FA#22, .word 0x0400FA#22] ∧
    answer (.word 0x0000FA#22) = some (.error (.invalidBitWidth 0)) := by decide

theorem witness_EveryRequestHasOneOfTwoOutcomes :
    (presented [.word 0x0400FA#22]).pending = [.word 0x0400FA#22] := rfl

theorem witness_RoundTripBound : (1 ≤ (1#4).toNat ∧ (1#4).toNat ≤ 8) ∧
    ((1 : Nat) ≤ 8 ∧ (8 : Nat) ≤ 8 ∧ stackP1.shape = needleP1.shape) := by decide

theorem witness_ReembeddingChangesNothing : (1 ≤ (8#4).toNat ∧ (8#4).toNat ≤ 8) ∧
    ((1 : Nat) ≤ 1 ∧ (1 : Nat) ≤ 8 ∧ stackP1.shape = needleP1.shape) := by decide

theorem witness_IsolateGivesBitAtTop : (7#4).toNat ≤ 7 := by decide

theorem witness_FullWidthIsIdentity : stackP1.shape = needleP1.shape := by decide

theorem witness_SingleBitEmbed : (1 : Nat) ≤ 7 ∧ (7 : Nat) ≤ 7 := by decide

theorem witness_PlanesReconstructTheSample :
    0 < stackP1.shape.rows ∧ 1 < stackP1.shape.cols ∧ 2 < stackP1.shape.ch := by decide

theorem witness_TransplantKeepsStackHighTakesNeedleHigh : 1 ≤ (4#4).toNat ∧ (4#4).toNat ≤ 8 ∧ (4#4).toNat ≤ 7 ∧
    0xF0#8 >>> (4#4).toNat = 0xFF#8 >>> (4#4).toNat ∧ 0xAA#8 >>> (8 - (4#4).toNat) = 0xA0#8 >>> (8 - (4#4).toNat) := by
  decide

theorem witness_PromoteZeroesTheLowEnd : 1 ≤ (7#4).toNat ∧ (7#4).toNat ≤ 7 := by decide

theorem witness_IsolateIsPromoteOfTheShiftedSample : (7#4).toNat ≤ 7 := by decide

theorem witness_ExtractingTwiceIsNotExtractingOnce :
    (1 ≤ (8#4).toNat ∧ (8#4).toNat ≤ 8) ∧ (1 ≤ (4#4).toNat ∧ (4#4).toNat ≤ 8 ∧ (4#4).toNat ≤ 4 ∧ (4#4).toNat ≤ 7) := by
  decide

theorem witness_AnotherWidthIsNoErrorAndNoRoundTrip :
    1 ≤ (1#4).toNat ∧ (1#4).toNat ≤ 8 ∧ 1 ≤ (8#4).toNat ∧ (8#4).toNat ≤ 8 ∧ (1#4) ≠ 8#4 := by decide

theorem witness_ShapesArePreserved : (1 : Nat) ≤ 8 ∧ (8 : Nat) ≤ 8 ∧ stackP1.shape = needleP1.shape := by decide

theorem witness_FlatOrderNumbersThePositions :
    (0 < stackP1.shape.rows ∧ 1 < stackP1.shape.cols ∧ 2 < stackP1.shape.ch ∧
      stackP1.shape.flat 0 1 2 = stackP1.shape.flat 0 1 2) ∧
    5 < stackP1.shape.rows * stackP1.shape.cols * stackP1.shape.ch := by decide

theorem witness_OutputDependsOnItsOwnPositionOnly : (1 : Nat) ≤ 8 ∧ (8 : Nat) ≤ 8 ∧ stackP1.shape = needleP1.shape ∧
    (pixel 0xF0#8).shape = (pixel 0xAA#8).shape ∧
    stackP1.sampleAt? 0 0 0 = (pixel 0xF0#8).sampleAt? 0 0 0 ∧
    needleP1.sampleAt? 0 0 0 = (pixel 0xAA#8).sampleAt? 0 0 0 := by decide

theorem witness_EmbedIsItsTransplantWords : 1 ≤ (8#4).toNat ∧ (8#4).toNat ≤ 8 ∧ stackP1.shape = needleP1.shape ∧
    5 < stackP1.shape.rows * stackP1.shape.cols * stackP1.shape.ch := by decide

theorem witness_ExtractIsItsPromoteWords : 1 ≤ (1#4).toNat ∧ (1#4).toNat ≤ 8 ∧
    5 < stackP1.shape.rows * stackP1.shape.cols * stackP1.shape.ch := by decide

theorem witness_BpdecomposeIsItsDecomposeWords :
    5 < stackP1.shape.rows * stackP1.shape.cols * stackP1.shape.ch := by decide

/-- Two lanes, three batches, the positions of P1 out of order. -/
theorem witness_EveryScheduleGivesTheSameImage :
    1 ≤ (Config.mk 2 3).lanes ∧ Accepts (Config.mk 2 3) stackP1.shape ∧ stackP1.shape = needleP1.shape ∧
    1 ≤ (8#4).toNat ∧ (8#4).toNat ≤ 8 ∧
    IsSchedule (Config.mk 2 3) stackP1.shape.size [[5, 0], [2, 1], [3, 4]] ∧
    (List.replicate 6 0xEE#8).length = stackP1.shape.size := by
  refine ⟨by decide, by unfold Accepts; decide, by decide, by decide, by decide, ⟨by decide, by decide⟩, by decide⟩

theorem witness_StepRunsTheDecodedRequest :
    (presented [.word 0x0400FA#22]).pending = [.word 0x0400FA#22] ∧ State.reset.pending = [] := ⟨rfl, rfl⟩

theorem witness_OperationsAddOneResponseOnly : exec (.decompose 0x80#8) State.reset =
    .next { pending := [], accepted := [], responses := [.result 0x8000000000000000#64] } := rfl

theorem witness_ResponseDependsOnTheRequestOnly :
    (presented [.bpdecompose stackP1]).pending = [.bpdecompose stackP1] ∧
    (presented [.bpdecompose stackP1, .word 0#22]).pending = [.bpdecompose stackP1, .word 0#22] := ⟨rfl, rfl⟩

theorem witness_FirstRequestAfterResetIsAnsweredAsAnyOther :
    (presented [.extract stackP1 4]).pending = [.extract stackP1 4] := rfl

theorem witness_PresentingARequestDisturbsNothing :
    (presented [.word 0x3000FF#22]).pending ≠ [] ∧ step (presented [.word 0x3000FF#22]) =
      .next { pending := [], accepted := [.word 0x3000FF#22], responses := [.result 0x8080808080808080#64] } :=
  ⟨by decide, rfl⟩

theorem witness_EveryStepKeepsTheTranscriptCorrect :
    Safety.Inv { pending := [.word 0x3000FF#22], accepted := [.word 0x0400FA#22], responses := [.result 0xA0#64] } ∧
    step { pending := [.word 0x3000FF#22], accepted := [.word 0x0400FA#22], responses := [.result 0xA0#64] } =
      .next { pending := [], accepted := [.word 0x0400FA#22, .word 0x3000FF#22],
              responses := [.result 0xA0#64, .result 0x8080808080808080#64] } :=
  ⟨by unfold Safety.Inv; decide, rfl⟩

theorem witness_RunAnswersEveryRequestInOrder :
    2 ≤ (presented [.word 0x0400FA#22, .embed stackP1 needleP1 4]).pending.length := by decide

theorem witness_RecoveredImageForgetsTheLowBits : (1 : Nat) ≤ 4 ∧ (4 : Nat) ≤ 8 ∧
    (pixel 0xF0#8).shape = (pixel 0xAA#8).shape ∧ (pixel 0x00#8).shape = (pixel 0xA5#8).shape ∧
    (pixel 0xAA#8).shape = (pixel 0xA5#8).shape ∧
    (pixel 0xAA#8).samples.map (fun v : Sample => v >>> (8 - 4)) =
      (pixel 0xA5#8).samples.map (fun v : Sample => v >>> (8 - 4)) := by decide

end Sys2Proof.Tests
end

section
/-! PROOFS for the scope (00_scope.md): what EXTRACT and EMBED answer, and what EXTRACT recovers from an embedded Image.
The round trip is said once, of one Sample (`promoteSample_transplantSample`), and carried to whole Images position by
position. -/

namespace Sys2Proof

/-- What PROMOTE recovers after TRANSPLANT: the needle's Sample with the bits below its high `n` cleared
(45_laws.md R170). -/
theorem promoteSample_transplantSample (dst src : Sample) (n : BitWidth) :
    promoteSample (transplantSample dst src n) n = src >>> (8 - n.val) <<< (8 - n.val) := by
  apply BitVec.eq_of_getLsbD_eq
  intro k hk
  rw [getLsbD_promoteSample _ _ _ hk, getLsbD_transplantSample _ _ _ _ (by omega)]
  obtain ⟨n, h1, h8⟩ := n
  by_cases h : 8 - n ≤ k
  · simp [h, hk, show k - (8 - n) < n by omega, Nat.add_comm]
  · simp [h, Nat.lt_of_not_le h]

/-- A pointwise combination that looks only at its second list is a map of it. -/
theorem zipWith_snd_eq_map {α β γ : Type} (f : β → γ) {as : List α} {bs : List β} (h : bs.length ≤ as.length) :
    List.zipWith (fun _ b => f b) as bs = bs.map f := by
  calc List.zipWith (fun _ b => f b) as bs
      _ = (as.zip bs).map (f ∘ Prod.snd) := (List.map_zip_eq_zipWith (f := f ∘ Prod.snd)).symm
      _ = bs.map f := by rw [← List.map_map, List.map_snd_zip h]

/-- The same of whole Images: the recovered Image is the needle with those bits cleared at every position, whatever the
stack (42_extract.md R142). -/
theorem Image.mapSamples_promote_zipSamples_transplant (stack needle : Image) (h : stack.shape = needle.shape)
    (n : BitWidth) :
    (stack.zipSamples (fun dst src => transplantSample dst src n) needle h).mapSamples (fun v => promoteSample v n) =
      needle.mapSamples fun v => v >>> (8 - n.val) <<< (8 - n.val) := by
  have hlen : needle.samples.length ≤ stack.samples.length := by rw [needle.complete, stack.complete, h]
  refine Image.eq_of_samples (by simpa using h) ?_
  simp only [mapSamples_samples, zipSamples_samples, List.map_zipWith, promoteSample_transplantSample]
  exact zipWith_snd_eq_map _ hlen

/-- Needles that agree in their high bits are one Image once the low bits are cleared. -/
theorem Image.mapSamples_clearLow_eq {a b : Image} (hs : a.shape = b.shape) (k : Nat)
    (h : a.samples.map (fun v : Sample => v >>> k) = b.samples.map (fun v : Sample => v >>> k)) :
    a.mapSamples (fun v => v >>> k <<< k) = b.mapSamples (fun v => v >>> k <<< k) := by
  refine Image.eq_of_samples (by simpa using hs) ?_
  simpa [Function.comp_def] using congrArg (List.map fun v : Sample => v <<< k) h

namespace Machine

/-- A request whose operation succeeds with `r` is answered with `r`. -/
theorem answer_of_exec_eq_finish {q : Request} {r : Response} (h : ∀ s, exec (decode q) s = finish r s) :
    answer q = some r := by
  simp [answer, step, fetch, h, finish]

/-- An operation that succeeds with an Image has that Image as its result. -/
theorem imageResult_of_exec_eq_finish {i : Instr} {out : Image}
    (h : ∀ s, exec (decode (encode i)) s = finish (.image out) s) : imageResult i = some out := by
  simp [imageResult, answer_of_exec_eq_finish h, outImage?]

/-- EXTRACT with a legal `n`: PROMOTE at every position (42_extract.md R140). -/
theorem exec_extract_of_legal (source : Image) {n : Nat} (hn : 1 ≤ n ∧ n ≤ 8) (s : State) :
    exec (.extract source n) s = finish (.image (source.mapSamples fun v => promoteSample v ⟨n, hn⟩)) s :=
  withBitWidth_of_legal hn s _

/-- EMBED with a legal `n` and equal shapes: TRANSPLANT at every position (41_embed.md R130). -/
theorem exec_embed_of_legal {stack needle : Image} (h : stack.shape = needle.shape) {n : Nat} (hn : 1 ≤ n ∧ n ≤ 8)
    (s : State) :
    exec (.embed stack needle n) s =
      finish (.image (stack.zipSamples (fun dst src => transplantSample dst src ⟨n, hn⟩) needle h)) s :=
  (withBitWidth_of_legal hn s _).trans (dif_pos h)

theorem imageResult_extract (source : Image) {n : Nat} (hn : 1 ≤ n ∧ n ≤ 8) :
    imageResult (.extract source n) = some (source.mapSamples fun v => promoteSample v ⟨n, hn⟩) :=
  imageResult_of_exec_eq_finish (exec_extract_of_legal source hn)

theorem imageResult_embed {stack needle : Image} (h : stack.shape = needle.shape) {n : Nat} (hn : 1 ≤ n ∧ n ≤ 8) :
    imageResult (.embed stack needle n) =
      some (stack.zipSamples (fun dst src => transplantSample dst src ⟨n, hn⟩) needle h) :=
  imageResult_of_exec_eq_finish (exec_embed_of_legal h hn)

/-- What EXTRACT recovers after EMBED: the needle with the bits below its high `n` cleared (42_extract.md R142). -/
theorem imageResult_extract_embedded {stack needle : Image} (h : stack.shape = needle.shape) {n : Nat}
    (hn : 1 ≤ n ∧ n ≤ 8) :
    imageResult (.extract (stack.zipSamples (fun dst src => transplantSample dst src ⟨n, hn⟩) needle h) n) =
      some (needle.mapSamples fun v => v >>> (8 - n) <<< (8 - n)) := by
  rw [imageResult_extract _ hn, Image.mapSamples_promote_zipSamples_transplant]

/-- Settles O56: each recovered Image is its needle with the bits below the high `n` cleared, and these two are one
Image. -/
theorem recoveredImageForgetsTheLowBits : Obligations.RecoveredImageForgetsTheLowBits := by
  intro stack stack' needle needle' n h1 h8 hs hs' hneedle hhigh
  have hn : 1 ≤ n ∧ n ≤ 8 := ⟨h1, h8⟩
  have hsame := Image.mapSamples_clearLow_eq hneedle (8 - n) hhigh
  exact ⟨_, _, _, imageResult_embed hs hn, imageResult_embed hs' hn, imageResult_extract_embedded hs hn,
    hsame ▸ imageResult_extract_embedded hs' hn⟩

end Machine

end Sys2Proof
end

section
/-! PROOFS for the state (10_state.md): what a step does with and without a request pending, and that every operation
answers with one response fixed before the state is known (`exec_eq_finish`), which is why a response depends on its
request only. -/

namespace Sys2Proof.Machine

/-! ### What a step does -/

theorem step_of_no_pending {s : State} (h : s.pending = []) : step s = .next s := by
  simp [step, fetch, h]

theorem step_of_pending {s : State} {q : Request} {rest : List Request} (h : s.pending = q :: rest) :
    step s = exec (decode q) { s with pending := rest, accepted := s.accepted ++ [q] } := by
  simp [step, fetch, h]

@[simp] theorem numberWord_toNat (w : OpWord) : numberWord w.toNat = .ok w := by
  simp [numberWord, w.isLt]

/-- The 24 bits of an opcode-table word hold any operation word, which is then the next request (log entry 12). -/
theorem State.withFetchWord_toNat (s : State) (w : OpWord) :
    s.withFetchWord 24 w.toNat = { s with pending := .word w :: s.pending } := by
  have hmod : w.toNat % 2 ^ 24 = w.toNat := Nat.mod_eq_of_lt (by omega)
  simp only [withFetchWord, hmod, numberWord_toNat]

/-- Settles O48: the clauses for a pending and for no pending request are `step`'s two branches, and a fetch word is a
pending request. -/
theorem stepRunsTheDecodedRequest : Obligations.StepRunsTheDecodedRequest := by
  refine ⟨fun s q rest h => step_of_pending h, fun s h => step_of_no_pending h, fun s w => ?_⟩
  rw [State.withFetchWord_toNat]
  exact step_of_pending (s := { s with pending := .word w :: s.pending }) rfl

/-! ### Every operation answers, whatever the state -/

/-- Raising an error is finishing with the error response (60_exceptions.md R206). -/
theorem raise_eq_finish (e : Err) (s : State) : raise e s = finish (.error e) s := rfl

/-- A guarded operation answers with one response in every state when it does so for every legal width: the guard
looks at `n` only. -/
theorem withBitWidth_eq_finish (n : Nat) {f : BitWidth → State → Host.Outcome State Fault Refusal}
    (hf : ∀ width, ∃ r, ∀ s, f width s = finish r s) :
    ∃ r, ∀ s, withBitWidth n s (fun width => f width s) = finish r s := by
  by_cases hn : 1 ≤ n ∧ n ≤ 8
  · obtain ⟨r, hr⟩ := hf ⟨n, hn⟩
    exact ⟨r, fun s => (withBitWidth_of_legal hn s _).trans (hr s)⟩
  · exact ⟨_, fun s => (withBitWidth_of_illegal hn s _).trans (raise_eq_finish _ s)⟩

/-- The same of the guard on a bit index. -/
theorem withBitIndex_eq_finish (i : Nat) {f : BitIndex → State → Host.Outcome State Fault Refusal}
    (hf : ∀ index, ∃ r, ∀ s, f index s = finish r s) :
    ∃ r, ∀ s, withBitIndex i s (fun index => f index s) = finish r s := by
  by_cases hi : i < 8
  · obtain ⟨r, hr⟩ := hf ⟨i, hi⟩
    exact ⟨r, fun s => (withBitIndex_of_legal hi s _).trans (hr s)⟩
  · exact ⟨_, fun s => (withBitIndex_of_illegal hi s _).trans (raise_eq_finish _ s)⟩

/-- Every operation answers with one response, the same in every state, and does nothing else (10_state.md R26, R27;
60_exceptions.md R214). -/
theorem exec_eq_finish (i : Instr) : ∃ r, ∀ s, exec i s = finish r s := by
  cases i with
  | promote v n => exact withBitWidth_eq_finish _ fun _ => ⟨_, fun _ => rfl⟩
  | isolate v i => exact withBitIndex_eq_finish _ fun _ => ⟨_, fun _ => rfl⟩
  | transplant dst src n => exact withBitWidth_eq_finish _ fun _ => ⟨_, fun _ => rfl⟩
  | decompose v => exact ⟨_, fun _ => rfl⟩
  | extract source n => exact withBitWidth_eq_finish _ fun _ => ⟨_, fun _ => rfl⟩
  | embed stack needle n =>
    refine withBitWidth_eq_finish _ fun width => ?_
    by_cases h : stack.shape = needle.shape
    · exact ⟨_, fun _ => dif_pos h⟩
    · exact ⟨_, fun s => (dif_neg h).trans (raise_eq_finish _ s)⟩
  | bpdecompose source => exact ⟨_, fun _ => rfl⟩

/-- A step with a request pending moves it to the accepted ones and adds the response to it alone. -/
theorem exists_answer_step (q : Request) :
    ∃ r, answer q = some r ∧ ∀ (s : State) (rest : List Request), s.pending = q :: rest →
      step s = .next { pending := rest, accepted := s.accepted ++ [q], responses := s.responses ++ [r] } := by
  obtain ⟨r, hr⟩ := exec_eq_finish (decode q)
  exact ⟨r, answer_of_exec_eq_finish hr, fun s rest h => (step_of_pending h).trans (hr _)⟩

/-- Settles O50: in both states the step adds the response to the request alone. -/
theorem responseDependsOnTheRequestOnly : Obligations.ResponseDependsOnTheRequestOnly := by
  intro q s s' rest rest' hs hs'
  obtain ⟨r, hr, hstep⟩ := exists_answer_step q
  exact ⟨r, hr, hstep s rest hs, hstep s' rest' hs'⟩

end Sys2Proof.Machine
end

section
/-! PROOFS for the transcript (20_memory.md R48, R49(c)). Each datapath formula has the value of the rules' numerical
form, and each field of a word is found by division; so every operation, in every state, responds with what the
reference of Safety gives its request (`exec_decode_eq_expected`), and a step is that one response. -/

namespace Sys2Proof

open Safety

/-! ### The datapath formulas in natural numbers -/

/-- `mask(n) = 2^n - 1` (40_bitplaneshift.md R100). -/
theorem toNat_mask (n : BitWidth) : (mask n).toNat = 2 ^ n.val - 1 := by
  obtain ⟨n, h1, h8⟩ := n
  interval_cases n <;> rfl

theorem toNat_promoteSample (v : Sample) (n : BitWidth) :
    (promoteSample v n).toNat = promoteNat v.toNat n.val := by
  have hpow : 2 ^ n.val * 2 ^ (8 - n.val) = 2 ^ 8 := pow_mul_pow_sub 2 n.property.2
  have hlt : v.toNat % 2 ^ n.val * 2 ^ (8 - n.val) < 2 ^ 8 :=
    hpow ▸ Nat.mul_lt_mul_of_pos_right (Nat.mod_lt _ (by positivity)) (by positivity)
  rw [promoteSample, BitVec.toNat_shiftLeft, BitVec.toNat_and, toNat_mask, Nat.and_two_pow_sub_one_eq_mod,
    Nat.shiftLeft_eq, Nat.mod_eq_of_lt hlt, promoteNat]

theorem toNat_isolateSample (v : Sample) (i : BitIndex) :
    (isolateSample v i).toNat = isolateNat v.toNat i.val := by
  simp only [isolateSample_eq, isolateNat, ← BitVec.testBit_toNat, Nat.testBit_eq_decide_div_mod_eq,
    decide_eq_true_eq]
  split <;> rfl

theorem toNat_transplantSample (dst src : Sample) (n : BitWidth) :
    (transplantSample dst src n).toNat = transplantNat dst.toNat src.toNat n.val := by
  have hsrc : src.toNat / 2 ^ (8 - n.val) < 2 ^ n.val :=
    Nat.div_lt_of_lt_mul (pow_sub_mul_pow 2 n.property.2 ▸ src.isLt)
  apply Nat.eq_of_testBit_eq
  intro k
  rw [transplantNat, Nat.mul_comm, Nat.testBit_two_pow_mul_add _ hsrc, Nat.testBit_div_two_pow,
    Nat.testBit_div_two_pow, BitVec.testBit_toNat, BitVec.testBit_toNat, BitVec.testBit_toNat]
  by_cases hk : k < 8
  · rw [getLsbD_transplantSample _ _ _ _ hk]
    split
    · rfl
    · rw [Nat.sub_add_cancel (by omega)]
  · have hn := n.property.2
    rw [if_neg (by omega), Nat.sub_add_cancel (by omega), BitVec.getLsbD_of_ge _ _ (by omega),
      BitVec.getLsbD_of_ge _ _ (by omega)]

theorem toNat_append_eq_add {m n : Nat} (x : BitVec m) (y : BitVec n) :
    (x ++ y).toNat = x.toNat * 2 ^ n + y.toNat := by
  rw [BitVec.toNat_append, ← Nat.shiftLeft_add_eq_or_of_lt y.isLt, Nat.shiftLeft_eq]

/-- Plane `i` is in byte `i` of the bus (30_encoding.md R72). -/
theorem toNat_planeBus (plane : BitIndex → Sample) :
    (planeBus plane).toNat = ∑ i : BitIndex, (plane i).toNat * 256 ^ i.val := by
  simp only [planeBus, toNat_append_eq_add, Fin.sum_univ_eight, Fin.coe_ofNat_eq_mod, Nat.reduceMod]
  ring

theorem toNat_planeBus_isolateSample (v : Sample) :
    (planeBus fun i => isolateSample v i).toNat = decomposeNat v.toNat := by
  simp only [toNat_planeBus, toNat_isolateSample]
  exact (Finset.sum_range fun i => isolateNat v.toNat i * 256 ^ i).symm


/-! ### The fields of a word by division -/

theorem toNat_opField (w : OpWord) : (opField w).toNat = w.toNat / 2 ^ 20 := by
  rw [opField, BitVec.extractLsb'_toNat, Nat.shiftRight_eq_div_pow]
  omega

theorem toNat_pField (w : OpWord) : (pField w).toNat = w.toNat / 2 ^ 16 % 16 := by
  rw [pField, BitVec.extractLsb'_toNat, Nat.shiftRight_eq_div_pow]

theorem toNat_bField (w : OpWord) : (bField w).toNat = w.toNat / 2 ^ 8 % 256 := by
  rw [bField, BitVec.extractLsb'_toNat, Nat.shiftRight_eq_div_pow]

theorem toNat_aField (w : OpWord) : (aField w).toNat = w.toNat % 256 := by
  rw [aField, BitVec.extractLsb'_toNat, Nat.shiftRight_zero]

theorem expectedWord_toNat (w : OpWord) :
    expectedWord w.toNat =
      expectedFields (opField w).toNat (pField w).toNat (bField w).toNat (aField w).toNat := by
  rw [expectedWord, toNat_opField, toNat_pField, toNat_bField, toNat_aField]

namespace Machine

/-! ### Every operation answers as the rules say -/

theorem exec_promote_eq_expected (v : Sample) (n : PField) (b : Nat) (s : State) :
    exec (.promote v n) s = finish (expectedFields 0 n.toNat b v.toNat) s := by
  by_cases hn : 1 ≤ n.toNat ∧ n.toNat ≤ 8
  · refine (withBitWidth_of_legal hn s _).trans ?_
    simp [expectedFields, hn, sampleBus_eq_ofNat, toNat_promoteSample]
  · refine (withBitWidth_of_illegal hn s _).trans ?_
    simp [expectedFields, hn, raise_eq_finish]

theorem exec_isolate_eq_expected (v : Sample) (i : PField) (b : Nat) (s : State) :
    exec (.isolate v i) s = finish (expectedFields 1 i.toNat b v.toNat) s := by
  by_cases hi : i.toNat < 8
  · refine (withBitIndex_of_legal hi s _).trans ?_
    simp [expectedFields, Nat.le_of_lt_succ hi, sampleBus_eq_ofNat, toNat_isolateSample]
  · refine (withBitIndex_of_illegal hi s _).trans ?_
    simp [expectedFields, show ¬i.toNat ≤ 7 by omega, raise_eq_finish]

theorem exec_transplant_eq_expected (dst src : Sample) (n : PField) (s : State) :
    exec (.transplant dst src n) s = finish (expectedFields 2 n.toNat src.toNat dst.toNat) s := by
  by_cases hn : 1 ≤ n.toNat ∧ n.toNat ≤ 8
  · refine (withBitWidth_of_legal hn s _).trans ?_
    simp [expectedFields, hn, sampleBus_eq_ofNat, toNat_transplantSample]
  · refine (withBitWidth_of_illegal hn s _).trans ?_
    simp [expectedFields, hn, raise_eq_finish]

theorem exec_decompose_eq_expected (v : Sample) (p b : Nat) (s : State) :
    exec (.decompose v) s = finish (expectedFields 3 p b v.toNat) s := by
  have hbus : (planeBus fun i => isolateSample v i) = BitVec.ofNat 64 (decomposeNat v.toNat) := by
    rw [← toNat_planeBus_isolateSample, BitVec.ofNat_toNat, BitVec.setWidth_eq]
  simp [exec, execDecompose, expectedFields, hbus]

/-- A word runs the operation its `OP` selects (30_encoding.md R61), and the reference selects by the same number. -/
theorem exec_decodeWord_eq_expected (w : OpWord) (s : State) :
    exec (decodeWord w) s = finish (expectedWord w.toNat) s := by
  rw [expectedWord_toNat, decodeWord]
  split
  next h => rw [h]; exact exec_promote_eq_expected ..
  next h0 =>
    split
    next h => rw [h]; exact exec_isolate_eq_expected ..
    next h1 =>
      split
      next h => rw [h]; exact exec_transplant_eq_expected ..
      next h2 =>
        have h : opField w = 3#2 := by bv_omega
        rw [h]
        exact exec_decompose_eq_expected ..

theorem exec_extract_eq_expected (source : Image) (n : Nat) (s : State) :
    exec (.extract source n) s = finish (expected (.extract source n)) s := by
  by_cases hn : 1 ≤ n ∧ n ≤ 8
  · rw [exec_extract_of_legal source hn]
    simp [expected, hn, mapNat, ← toNat_promoteSample _ ⟨n, hn⟩]
  · refine (withBitWidth_of_illegal hn s _).trans ?_
    simp [expected, hn, raise_eq_finish]

theorem exec_embed_eq_expected (stack needle : Image) (n : Nat) (s : State) :
    exec (.embed stack needle n) s = finish (expected (.embed stack needle n)) s := by
  by_cases hn : 1 ≤ n ∧ n ≤ 8
  · by_cases h : stack.shape = needle.shape
    · rw [exec_embed_of_legal h hn]
      simp [expected, hn, h, ← toNat_transplantSample _ _ ⟨n, hn⟩]
    · refine (withBitWidth_of_legal hn s _).trans ?_
      simp [expected, hn, h, raise_eq_finish]
  · refine (withBitWidth_of_illegal hn s _).trans ?_
    simp [expected, hn, raise_eq_finish]

theorem exec_bpdecompose_eq_expected (source : Image) (s : State) :
    exec (.bpdecompose source) s = finish (expected (.bpdecompose source)) s := by
  simp [exec, execBpdecompose, planeImage, expected, mapNat, ← toNat_isolateSample]

/-- Every request is answered as the rules say, in every state. -/
theorem exec_decode_eq_expected (q : Request) (s : State) : exec (decode q) s = finish (expected q) s := by
  cases q with
  | word w => exact exec_decodeWord_eq_expected w s
  | extract source n => exact exec_extract_eq_expected source n s
  | embed stack needle n => exact exec_embed_eq_expected stack needle n s
  | bpdecompose source => exact exec_bpdecompose_eq_expected source s

theorem step_of_pending_eq_expected {s : State} {q : Request} {rest : List Request} (h : s.pending = q :: rest) :
    step s = .next { pending := rest, accepted := s.accepted ++ [q], responses := s.responses ++ [expected q] } :=
  (step_of_pending h).trans (exec_decode_eq_expected q _)

/-- Settles O53: a step with no request pending changes nothing, and any other adds one request and the response the
rules give it. -/
theorem everyStepKeepsTheTranscriptCorrect : Obligations.EveryStepKeepsTheTranscriptCorrect := by
  intro s t hinv hstep
  cases hp : s.pending with
  | nil =>
    rw [step_of_no_pending hp] at hstep
    cases hstep
    exact hinv
  | cons q rest =>
    rw [step_of_pending_eq_expected hp] at hstep
    cases hstep
    simp only [Safety.Inv] at hinv ⊢
    rw [hinv, List.map_append, List.map_singleton]

/-- A run whose first step goes on is the run of the other steps from there. -/
theorem run_succ_of_step_eq_next {M : Host.Core} {s s' : M.State} (h : M.step s = .next s') (k : Nat) :
    M.run (k + 1) s = M.run k s' := by
  simp only [Host.Core.run, h]

/-- Settles O55, by induction on the number of steps. -/
theorem runAnswersEveryRequestInOrder : Obligations.RunAnswersEveryRequestInOrder := by
  intro s k
  induction k generalizing s with
  | zero => intro _; simp [Host.Core.run]
  | succ k ih =>
    intro hk
    cases hp : s.pending with
    | nil => simp [hp] at hk
    | cons q rest =>
      have hrest : k ≤ rest.length := by simpa [hp] using hk
      refine (run_succ_of_step_eq_next (M := core) (step_of_pending_eq_expected hp) k).trans ?_
      simpa using ih ⟨rest, s.accepted ++ [q], s.responses ++ [expected q]⟩ hrest

/-- Settles O52: the step takes the oldest request, and the new one is behind it in either order. -/
theorem presentingARequestDisturbsNothing : Obligations.PresentingARequestDisturbsNothing := by
  intro s t q hne hstep
  obtain ⟨oldest, rest, hp⟩ := List.exists_cons_of_ne_nil hne
  rw [step_of_pending_eq_expected hp] at hstep
  cases hstep
  exact step_of_pending_eq_expected (by rw [State.present_pending, hp, List.cons_append])

/-- Settles O49: every operation only responds. -/
theorem operationsAddOneResponseOnly : Obligations.OperationsAddOneResponseOnly := by
  intro i s t h
  obtain ⟨r, hr⟩ := exec_eq_finish i
  rw [hr] at h
  cases h
  exact ⟨rfl, rfl, by simp, by simp⟩

end Machine

end Sys2Proof
end

section
/-! PROOFS for Images and their positions (20_memory.md R43, R49, R53): the flat index as a row-major number; what an
output Sample depends on; and schedules. A schedule's writes are a fold over the positions it visits, of which only the
last write of each position counts (`getElem?_foldl_laneWrite`), so neither order nor lanes matter. -/

namespace Sys2Proof

/-! ### Positions and their flat index -/

/-- A flat index is a row-major number with digits `row`, `col` and `c`, so it stays below the number of positions. -/
theorem Shape.flat_lt_size (sh : Shape) {row col c : Nat} (hr : row < sh.rows) (hc : col < sh.cols) (hch : c < sh.ch) :
    sh.flat row col c < sh.rows * sh.cols * sh.ch := by
  have hpixel : row * sh.cols + col < sh.rows * sh.cols :=
    Nat.mul_comm row _ ▸ Nat.mul_add_lt_mul_of_lt_of_lt hr hc
  rw [Shape.flat, Nat.mul_comm _ sh.ch]
  exact Nat.mul_add_lt_mul_of_lt_of_lt hpixel hch

/-- A number `a * m + b` with `b < m` determines both `a` and `b`. -/
theorem eq_and_eq_of_mul_add_eq {m a b a' b' : Nat} (hb : b < m) (hb' : b' < m) (h : a * m + b = a' * m + b') :
    a = a' ∧ b = b' := by
  have hmod : b = b' := by
    simpa [Nat.mul_add_mod_of_lt hb, Nat.mul_add_mod_of_lt hb'] using congrArg (· % m) h
  subst hmod
  exact ⟨Nat.eq_of_mul_eq_mul_right (Nat.zero_lt_of_lt hb) (Nat.add_right_cancel h), rfl⟩

theorem Shape.flat_inj (sh : Shape) {row col c row' col' c' : Nat} (hc : col < sh.cols) (hch : c < sh.ch)
    (hc' : col' < sh.cols) (hch' : c' < sh.ch) (h : sh.flat row col c = sh.flat row' col' c') :
    row = row' ∧ col = col' ∧ c = c' := by
  obtain ⟨hpixel, hchannel⟩ := eq_and_eq_of_mul_add_eq hch hch' h
  obtain ⟨hrow, hcol⟩ := eq_and_eq_of_mul_add_eq hc hc' hpixel
  exact ⟨hrow, hcol, hchannel⟩

/-- The digits of `k`: the channel is `k % ch`, and `k / ch` numbers the pixel in its row of `cols`. -/
theorem Shape.exists_flat_eq (sh : Shape) {k : Nat} (hk : k < sh.rows * sh.cols * sh.ch) :
    ∃ row col c, row < sh.rows ∧ col < sh.cols ∧ c < sh.ch ∧ sh.flat row col c = k := by
  have hpixel : k / sh.ch < sh.rows * sh.cols := Nat.div_lt_of_lt_mul (Nat.mul_comm .. ▸ hk)
  have hch : 0 < sh.ch := Nat.pos_of_mul_pos_left (Nat.zero_lt_of_lt hk)
  have hcols : 0 < sh.cols := Nat.pos_of_mul_pos_left (Nat.zero_lt_of_lt hpixel)
  refine ⟨k / sh.ch / sh.cols, k / sh.ch % sh.cols, k % sh.ch, Nat.div_lt_of_lt_mul (Nat.mul_comm .. ▸ hpixel),
    Nat.mod_lt _ hcols, Nat.mod_lt _ hch, ?_⟩
  rw [Shape.flat, Nat.div_add_mod', Nat.div_add_mod']

/-- Settles O42: a row-major number is bounded by the product of its digits' ranges, determines its digits, and every
number below the product has such digits. -/
theorem flatOrderNumbersThePositions : Obligations.FlatOrderNumbersThePositions := by
  intro sh
  refine ⟨fun row col c hr hc hch => sh.flat_lt_size hr hc hch, ?_, fun k hk => sh.exists_flat_eq hk⟩
  intro row col c row' col' c' _ hc hch _ hc' hch' h
  exact sh.flat_inj hc hch hc' hch' h

namespace Machine

/-! ### An output Sample depends on its own position -/

/-- BPDECOMPOSE: ISOLATE at every position, once for every bit (43_decompose.md R155). -/
theorem planesResult_bpdecompose (source : Image) :
    planesResult (.bpdecompose source) = some (Vector.ofFn fun i => planeImage source i) := by
  have hanswer : answer (encode (.bpdecompose source)) = some (.planes (Vector.ofFn fun i => planeImage source i)) :=
    answer_of_exec_eq_finish fun _ => rfl
  simp [planesResult, hanswer, outPlanes?]

/-- Settles O43: each output is a pointwise map, whose Sample at a position is a function of the operands' Samples
there. -/
theorem outputDependsOnItsOwnPositionOnly : Obligations.OutputDependsOnItsOwnPositionOnly := by
  refine ⟨?_, ?_, ?_⟩
  · intro x x' n row col c h1 h8 hx
    refine ⟨_, _, imageResult_extract x ⟨h1, h8⟩, imageResult_extract x' ⟨h1, h8⟩, ?_⟩
    rw [Image.sampleAt?_mapSamples, Image.sampleAt?_mapSamples, hx]
  · intro a a' b b' n row col c h1 h8 hs hs' ha hb
    refine ⟨_, _, imageResult_embed hs ⟨h1, h8⟩, imageResult_embed hs' ⟨h1, h8⟩, ?_⟩
    rw [Image.sampleAt?_zipSamples, Image.sampleAt?_zipSamples, ha, hb]
  · intro x x' row col c hx
    refine ⟨_, _, planesResult_bpdecompose x, planesResult_bpdecompose x', fun i => ?_⟩
    simp only [Fin.getElem_fin, Vector.getElem_ofFn, planeImage, Image.sampleAt?_mapSamples, hx]

/-! ### The sample words of a frame macro-operation -/

theorem busResult_of_exec_eq_finish {q : Request} {r : Bus} (h : ∀ s, exec (decode q) s = finish (.result r) s) :
    busResult q = some r := by
  simp [busResult, answer_of_exec_eq_finish h, resultBus?]

theorem busResult_promoteWord (v : Sample) (b : Sample) {n : PField} (hn : 1 ≤ n.toNat ∧ n.toNat ≤ 8) :
    busResult (.word (packWord 0b00#2 n b v)) = some (sampleBus (promoteSample v ⟨n.toNat, hn⟩)) := by
  refine busResult_of_exec_eq_finish fun s => ?_
  simp only [decode, decodeWord, opField_packWord, pField_packWord, aField_packWord, if_true]
  exact withBitWidth_of_legal hn s _

theorem busResult_transplantWord (dst src : Sample) {n : PField} (hn : 1 ≤ n.toNat ∧ n.toNat ≤ 8) :
    busResult (.word (packWord 0b10#2 n src dst)) = some (sampleBus (transplantSample dst src ⟨n.toNat, hn⟩)) := by
  refine busResult_of_exec_eq_finish fun s => ?_
  simp only [decode, decodeWord, opField_packWord, pField_packWord, aField_packWord, bField_packWord]
  exact withBitWidth_of_legal hn s _

theorem busResult_decomposeWord (v b : Sample) (p : PField) :
    busResult (.word (packWord 0b11#2 p b v)) = some (planeBus fun i => isolateSample v i) := by
  refine busResult_of_exec_eq_finish fun s => ?_
  simp only [decode, decodeWord, opField_packWord, aField_packWord]
  rfl

/-! ### Every schedule assembles the same output -/

/-- `samples` are the bytes `i` of the results of `words`, each of which succeeds: what a schedule is to assemble. -/
def Produces (words : List OpWord) (i : BitIndex) (samples : List Sample) : Prop :=
  words.map (fun w => (busResult (.word w)).map fun r => busByte r i) = samples.map some

/-- A lane puts the Sample of its position in place and leaves every other position alone. -/
theorem getElem?_laneWrite {words : List OpWord} {i : BitIndex} {samples out : List Sample}
    (h : Produces words i samples) (hlen : out.length = samples.length) (k j : Nat) :
    (laneWrite words i out k)[j]? = if j = k then samples[j]? else out[j]? := by
  have hk : words[k]?.map (fun w => (busResult (.word w)).map fun r => busByte r i) = samples[k]?.map some := by
    rw [← List.getElem?_map, h, List.getElem?_map]
  unfold laneWrite
  cases hw : words[k]? with
  | none =>
    have hnone : samples[k]? = none := by simpa [hw] using hk.symm
    grind
  | some w =>
    cases hr : busResult (.word w) with
    | none => simp [hw, hr, eq_comm] at hk
    | some r =>
      have hsome : samples[k]? = some (busByte r i) := by simpa [hw, hr, eq_comm] using hk
      grind

@[simp] theorem length_laneWrite (words : List OpWord) (i : BitIndex) (out : List Sample) (k : Nat) :
    (laneWrite words i out k).length = out.length := by
  unfold laneWrite
  split
  · rfl
  · split
    · rfl
    · exact List.length_set

/-- After the writes of the positions `ks`, in this order and as often as they stand there, the buffer holds the Samples
at those positions and what it held at every other. -/
theorem getElem?_foldl_laneWrite {words : List OpWord} {i : BitIndex} {samples : List Sample}
    (h : Produces words i samples) (ks : List Nat) {out : List Sample} (hlen : out.length = samples.length) (j : Nat) :
    (ks.foldl (laneWrite words i) out)[j]? = if j ∈ ks then samples[j]? else out[j]? := by
  induction ks generalizing out with
  | nil => simp
  | cons k ks ih =>
    rw [List.foldl_cons, ih (by simpa using hlen), getElem?_laneWrite h hlen]
    by_cases hj : j ∈ ks <;> simp [hj]

/-- Every schedule assembles the Samples its words produce, whatever the buffer held: it visits every position, and only
the last write of a position counts. -/
theorem runSchedule_eq_of_produces {cfg : Config} {words : List OpWord} {i : BitIndex} {out : Image}
    {buffer : List Sample} {schedule : List (List Nat)} (h : Produces words i out.samples)
    (hsched : IsSchedule cfg out.shape.size schedule) (hlen : buffer.length = out.shape.size) :
    runSchedule words i schedule buffer = out.samples := by
  obtain ⟨_, hvisits⟩ := hsched
  have hbuffer : buffer.length = out.samples.length := hlen.trans out.complete.symm
  apply List.ext_getElem?
  intro j
  rw [runSchedule, ← List.foldl_flatten, getElem?_foldl_laneWrite h _ hbuffer]
  split
  · rfl
  next hj =>
    have hge : out.samples.length ≤ j := by
      simpa [hvisits.mem_iff, ← out.complete] using hj
    rw [List.getElem?_eq_none hge, List.getElem?_eq_none (hbuffer.trans_le hge)]

theorem produces_extractWords (source : Image) {n : PField} (hn : 1 ≤ n.toNat ∧ n.toNat ≤ 8) :
    Produces (extractWords source n) 0 (source.mapSamples fun v => promoteSample v ⟨n.toNat, hn⟩).samples := by
  simp [Produces, extractWords, busResult_promoteWord _ _ hn]

theorem produces_embedWords {stack needle : Image} (h : stack.shape = needle.shape) {n : PField}
    (hn : 1 ≤ n.toNat ∧ n.toNat ≤ 8) :
    Produces (embedWords stack needle n) 0
      (stack.zipSamples (fun dst src => transplantSample dst src ⟨n.toNat, hn⟩) needle h).samples := by
  simp [Produces, embedWords, List.map_zipWith, busResult_transplantWord _ _ hn]

theorem produces_bpdecomposeWords (source : Image) (i : BitIndex) :
    Produces (bpdecomposeWords source) i (planeImage source i).samples := by
  simp [Produces, bpdecomposeWords, planeImage, busResult_decomposeWord]

/-- Settles O47: each kind of words produces the Samples of its transaction's output, and those are what every schedule
assembles. -/
theorem everyScheduleGivesTheSameImage : Obligations.EveryScheduleGivesTheSameImage := by
  intro cfg schedule buffer _
  refine ⟨?_, ?_, ?_⟩
  · intro source n _ h1 h8 hsched hlen
    exact ⟨_, imageResult_extract source ⟨h1, h8⟩,
      runSchedule_eq_of_produces (produces_extractWords source ⟨h1, h8⟩) hsched hlen⟩
  · intro stack needle n _ h h1 h8 hsched hlen
    exact ⟨_, imageResult_embed h ⟨h1, h8⟩,
      runSchedule_eq_of_produces (produces_embedWords h ⟨h1, h8⟩) hsched hlen⟩
  · intro source _ hsched hlen
    refine ⟨_, planesResult_bpdecompose source, fun i => ?_⟩
    simp only [Fin.getElem_fin, Vector.getElem_ofFn]
    exact runSchedule_eq_of_produces (produces_bpdecomposeWords source i) hsched hlen

end Machine

end Sys2Proof
end

section
/-! PROOFS for the encoding (30_encoding.md). A word is the mixed-radix number of its four fields, so it is determined
by them (`packWord_fields`); `decodeWord` is read off the `OP` field alone, one lemma per operation; and what a word
decodes to is encoded as its canonical word (`encode_decodeWord`). Legality looks at bits 21 to 16 only, which turns the
counts of R66 over `2^22` words into counts over 64 numbers. -/

namespace Sys2Proof

/-! ### The word and its fields -/

/-- `OP * 2^20 + P * 2^16 + B * 2^8 + A` (30_encoding.md R60). -/
theorem toNat_packWord (op : OpField) (p : PField) (b a : Sample) :
    (packWord op p b a).toNat = op.toNat * 2 ^ 20 + p.toNat * 2 ^ 16 + b.toNat * 2 ^ 8 + a.toNat := by
  change (op ++ p ++ b ++ a).toNat = _
  simp only [toNat_append_eq_add]
  omega

theorem packWord_eq_ofNat (op : OpField) (p : PField) (b a : Sample) :
    packWord op p b a = BitVec.ofNat 22 (op.toNat * 2 ^ 20 + p.toNat * 2 ^ 16 + b.toNat * 2 ^ 8 + a.toNat) := by
  rw [← toNat_packWord, BitVec.ofNat_toNat, BitVec.setWidth_eq]

/-- A word is nothing but its four fields: they are the digits of its number. -/
theorem packWord_fields (w : OpWord) : packWord (opField w) (pField w) (bField w) (aField w) = w := by
  apply BitVec.eq_of_toNat_eq
  rw [toNat_packWord, toNat_opField, toNat_pField, toNat_bField, toNat_aField]
  omega

/-- Settles O1. -/
theorem operationWordIsItsFourFields : Obligations.OperationWordIsItsFourFields :=
  ⟨fun op p b a => ⟨toNat_packWord op p b a, opField_packWord .., pField_packWord .., bField_packWord ..,
    aField_packWord ..⟩, packWord_fields⟩

/-! ### Decoding by the `OP` field -/

theorem opField_cases (w : OpWord) :
    opField w = 0b00#2 ∨ opField w = 0b01#2 ∨ opField w = 0b10#2 ∨ opField w = 0b11#2 := by
  generalize opField w = op
  revert op
  decide

theorem decodeWord_promote {w : OpWord} (h : opField w = 0b00#2) : decodeWord w = .promote (aField w) (pField w) := by
  simp [decodeWord, h]

theorem decodeWord_isolate {w : OpWord} (h : opField w = 0b01#2) : decodeWord w = .isolate (aField w) (pField w) := by
  simp [decodeWord, h]

theorem decodeWord_transplant {w : OpWord} (h : opField w = 0b10#2) :
    decodeWord w = .transplant (aField w) (bField w) (pField w) := by
  simp [decodeWord, h]

theorem decodeWord_decompose {w : OpWord} (h : opField w = 0b11#2) : decodeWord w = .decompose (aField w) := by
  simp [decodeWord, h]

/-- Decoding is the inverse of encoding: the fields of a packed word are the operands packed. -/
theorem decode_encode (i : Instr) : decode (encode i) = i := by
  cases i with
  | promote v n => exact (decodeWord_promote (opField_packWord ..)).trans (by simp)
  | isolate v i => exact (decodeWord_isolate (opField_packWord ..)).trans (by simp)
  | transplant dst src n => exact (decodeWord_transplant (opField_packWord ..)).trans (by simp)
  | decompose v => exact (decodeWord_decompose (opField_packWord ..)).trans (by simp)
  | extract source n => rfl
  | embed stack needle n => rfl
  | bpdecompose source => rfl

/-- Settles O4. -/
theorem decodeOfEncodeIsTheInstruction : Obligations.DecodeOfEncodeIsTheInstruction := decode_encode

/-- Settles O3, by running the decoder on the five words. -/
theorem sampleWordsDecode : Obligations.SampleWordsDecode := by
  unfold Obligations.SampleWordsDecode
  decide

/-- Settles O8. -/
theorem exactlyThe22BitNumbersDecode : Obligations.ExactlyThe22BitNumbersDecode := by
  refine ⟨fun w h => ?_, fun w h => ?_⟩
  · simp only [decodeNumber, numberWord, if_pos h]
  · simp only [decodeNumber, numberWord, if_neg (Nat.not_lt.2 h)]

/-- The decoder sees only the fields the operation uses (30_encoding.md R65). -/
theorem decodeWord_eq_of_used_fields {w w' : OpWord} (hop : opField w = opField w') (ha : aField w = aField w')
    (hp : opField w ≠ 0b11#2 → pField w = pField w') (hb : opField w = 0b10#2 → bField w = bField w') :
    decodeWord w = decodeWord w' := by
  obtain h | h | h | h := opField_cases w
  · rw [decodeWord_promote h, decodeWord_promote (hop ▸ h), ha, hp (by simp [h])]
  · rw [decodeWord_isolate h, decodeWord_isolate (hop ▸ h), ha, hp (by simp [h])]
  · rw [decodeWord_transplant h, decodeWord_transplant (hop ▸ h), ha, hp (by simp [h]), hb h]
  · rw [decodeWord_decompose h, decodeWord_decompose (hop ▸ h), ha]

/-! ### The canonical word -/

/-- `w` with zero in the fields its operation ignores (30_encoding.md R65, R75). -/
def canonicalWord (w : OpWord) : OpWord :=
  packWord (opField w) (if opField w = 0b11#2 then 0#4 else pField w) (if opField w = 0b10#2 then bField w else 0#8)
    (aField w)

theorem encode_decodeWord (w : OpWord) : encode (decodeWord w) = .word (canonicalWord w) := by
  obtain h | h | h | h := opField_cases w
  · simp [decodeWord_promote h, encode, canonicalWord, h]
  · simp [decodeWord_isolate h, encode, canonicalWord, h]
  · simp [decodeWord_transplant h, encode, canonicalWord, h]
  · simp [decodeWord_decompose h, encode, canonicalWord, h]

theorem decodeWord_canonicalWord (w : OpWord) : decodeWord (canonicalWord w) = decodeWord w := by
  have h := decode_encode (decodeWord w)
  rwa [encode_decodeWord] at h

@[simp] theorem opField_canonicalWord (w : OpWord) : opField (canonicalWord w) = opField w :=
  opField_packWord ..

@[simp] theorem pField_canonicalWord (w : OpWord) :
    pField (canonicalWord w) = if opField w = 0b11#2 then 0#4 else pField w :=
  pField_packWord ..

@[simp] theorem bField_canonicalWord (w : OpWord) :
    bField (canonicalWord w) = if opField w = 0b10#2 then bField w else 0#8 :=
  bField_packWord ..

@[simp] theorem aField_canonicalWord (w : OpWord) : aField (canonicalWord w) = aField w :=
  aField_packWord ..

/-! ### Legality -/

theorem legalWidth_iff (n : Nat) : legalWidth n = true ↔ 1 ≤ n ∧ n ≤ 8 := by
  simp [legalWidth]

theorem legalIndex_iff (i : Nat) : legalIndex i = true ↔ i ≤ 7 := by
  simp [legalIndex]

/-- Whether a word is legal depends on its `OP` and `P` fields only (30_encoding.md R66). -/
theorem wellFormed_decodeWord_congr {w w' : OpWord} (hop : opField w = opField w') (hp : pField w = pField w') :
    wellFormed (decodeWord w) = wellFormed (decodeWord w') := by
  obtain h | h | h | h := opField_cases w
  · simp only [decodeWord_promote h, decodeWord_promote (hop ▸ h), wellFormed, hp]
  · simp only [decodeWord_isolate h, decodeWord_isolate (hop ▸ h), wellFormed, hp]
  · simp only [decodeWord_transplant h, decodeWord_transplant (hop ▸ h), wellFormed, hp]
  · simp only [decodeWord_decompose h, decodeWord_decompose (hop ▸ h), wellFormed]

/-- The word with bits 21 to 16 the number `h` and zero below. -/
def highWord (h : Nat) : OpWord := BitVec.ofNat 22 (h * 2 ^ 16)

/-- Bits 15 to 0 of a word have no part in its legality. -/
theorem wellFormed_decodeWord_eq_highWord (k : Nat) :
    wellFormed (decodeWord (BitVec.ofNat 22 k)) = wellFormed (decodeWord (highWord (k / 2 ^ 16))) := by
  apply wellFormed_decodeWord_congr
  · apply BitVec.eq_of_toNat_eq
    rw [toNat_opField, toNat_opField, highWord, BitVec.toNat_ofNat, BitVec.toNat_ofNat]
    omega
  · apply BitVec.eq_of_toNat_eq
    rw [toNat_pField, toNat_pField, highWord, BitVec.toNat_ofNat, BitVec.toNat_ofNat]
    omega

/-- A predicate of the quotient by `m` holds of `m` numbers for each quotient it holds of. -/
theorem count_div (q : Nat → Prop) [DecidablePred q] {m : Nat} (hm : 0 < m) (n : Nat) :
    Nat.count (fun k => q (k / m)) (m * n) = m * Nat.count q n := by
  induction n with
  | zero => simp
  | succ n ih =>
    have hblock : Nat.count (fun k => q ((m * n + k) / m)) m = if q n then m else 0 := by
      have hquot : ∀ k < m, (m * n + k) / m = n := fun k hk => by
        rw [Nat.mul_add_div hm, Nat.div_eq_of_lt hk, Nat.add_zero]
      split
      next h => exact Nat.count_of_forall fun k hk => (hquot k hk).symm ▸ h
      next h => exact Nat.count_of_forall_not fun k hk => (hquot k hk).symm ▸ h
    rw [Nat.mul_succ, Nat.count_add, ih, hblock, Nat.count_succ, Nat.mul_add]
    split <;> simp

/-- Each number of bits 21 to 16 stands for `2^16` words, all legal or all illegal. -/
theorem count_wellFormed_decodeWord (b : Bool) :
    Nat.count (fun k => wellFormed (decodeWord (BitVec.ofNat 22 k)) = b) (2 ^ 22) =
      2 ^ 16 * Nat.count (fun h => wellFormed (decodeWord (highWord h)) = b) 64 := by
  rw [← count_div _ (by decide)]
  simp only [wellFormed_decodeWord_eq_highWord, Nat.reducePow, Nat.reduceMul]

theorem count_legal_highWord : Nat.count (fun h => wellFormed (decodeWord (highWord h)) = true) 64 = 40 := by
  decide

theorem count_illegal_highWord : Nat.count (fun h => wellFormed (decodeWord (highWord h)) = false) 64 = 24 := by
  decide

theorem mem_illegalWidths_iff (p : PField) :
    p ∈ [0#4, 9#4, 10#4, 11#4, 12#4, 13#4, 14#4, 15#4] ↔ ¬(1 ≤ p.toNat ∧ p.toNat ≤ 8) := by
  revert p
  decide

theorem mem_illegalIndices_iff (p : PField) :
    p ∈ [8#4, 9#4, 10#4, 11#4, 12#4, 13#4, 14#4, 15#4] ↔ ¬p.toNat ≤ 7 := by
  revert p
  decide

namespace Machine

/-! ### What a word is answered with -/

theorem exec_promote_of_illegal (v : Sample) {n : PField} (hn : ¬(1 ≤ n.toNat ∧ n.toNat ≤ 8)) (s : State) :
    exec (.promote v n) s = raise (.invalidBitWidth n.toNat) s :=
  withBitWidth_of_illegal hn s _

theorem exec_isolate_of_illegal (v : Sample) {i : PField} (hi : ¬i.toNat ≤ 7) (s : State) :
    exec (.isolate v i) s = raise (.invalidBitIndex i.toNat) s :=
  withBitIndex_of_illegal (by omega) s _

theorem exec_transplant_of_illegal (dst src : Sample) {n : PField} (hn : ¬(1 ≤ n.toNat ∧ n.toNat ≤ 8)) (s : State) :
    exec (.transplant dst src n) s = raise (.invalidBitWidth n.toNat) s :=
  withBitWidth_of_illegal hn s _

/-- Settles O2: the `OP` field selects the operation, whose guard raises the error. -/
theorem decodeFollowsItsTableOnEveryWord : Obligations.DecodeFollowsItsTableOnEveryWord := by
  intro w s
  refine ⟨fun h _ _ => decodeWord_promote h, fun h hn => ?_, fun h _ => decodeWord_isolate h, fun h hi => ?_,
    fun h _ _ => decodeWord_transplant h, fun h hn => ?_, decodeWord_decompose⟩
  · rw [decodeWord_promote h]
    exact exec_promote_of_illegal _ hn s
  · rw [decodeWord_isolate h]
    exact exec_isolate_of_illegal _ hi s
  · rw [decodeWord_transplant h]
    exact exec_transplant_of_illegal _ _ hn s

/-- Requests for the same operation get the same response. -/
theorem answer_eq_of_decode_eq {q q' : Request} (h : decode q = decode q') : answer q = answer q' := by
  obtain ⟨r, hr⟩ := exec_eq_finish (decode q)
  rw [answer_of_exec_eq_finish hr, answer_of_exec_eq_finish (h ▸ hr)]

theorem answer_word_eq_expectedWord (w : OpWord) : answer (.word w) = some (Safety.expectedWord w.toNat) :=
  answer_of_exec_eq_finish (exec_decodeWord_eq_expected w)

/-- The error code of each word (30_encoding.md R66), read off the response the rules give it. -/
theorem responseCode_expectedWord (w : OpWord) :
    responseCode (Safety.expectedWord w.toNat) =
      if (opField w = 0b00#2 ∨ opField w = 0b10#2) ∧ ¬(1 ≤ (pField w).toNat ∧ (pField w).toNat ≤ 8) then 1#2
      else if opField w = 0b01#2 ∧ ¬(pField w).toNat ≤ 7 then 2#2
      else 0#2 := by
  rw [expectedWord_toNat]
  obtain h | h | h | h := opField_cases w
  · by_cases hn : 1 ≤ (pField w).toNat ∧ (pField w).toNat ≤ 8 <;>
      simp [Safety.expectedFields, responseCode, errCode, h, hn]
  · by_cases hi : (pField w).toNat ≤ 7 <;> simp [Safety.expectedFields, responseCode, errCode, h, hi]
  · by_cases hn : 1 ≤ (pField w).toNat ∧ (pField w).toNat ≤ 8 <;>
      simp [Safety.expectedFields, responseCode, errCode, h, hn]
  · simp [Safety.expectedFields, responseCode, h]

/-- An error response has no result bus to read (30_encoding.md R70). -/
theorem resultBus?_eq_none_of_error {r : Response} (h : responseCode r ≠ 0#2) : resultBus? r = none := by
  cases r with
  | result bus => exact absurd rfl h
  | image out => rfl
  | planes outs => rfl
  | error e => rfl

/-- Settles O7: the code is that of the guard of the word's operation, and 40 of the 64 numbers of bits 21 to 16 are
legal. -/
theorem illegalEncodingsAndTheirCount : Obligations.IllegalEncodingsAndTheirCount := by
  refine ⟨fun w => ⟨_, answer_word_eq_expectedWord w, ?_, ?_, ?_, resultBus?_eq_none_of_error⟩, ?_, ?_⟩
  · rw [responseCode_expectedWord, mem_illegalWidths_iff]
    split_ifs with hwidth hindex
    · exact iff_of_true rfl hwidth
    · exact iff_of_false (by decide) hwidth
    · exact iff_of_false (by decide) hwidth
  · rw [responseCode_expectedWord, mem_illegalIndices_iff]
    split_ifs with hwidth hindex
    · refine iff_of_false (by decide) fun ⟨hop, _⟩ => ?_
      simp [hop] at hwidth
    · exact iff_of_true rfl hindex
    · exact iff_of_false (by decide) hindex
  · rw [responseCode_expectedWord]
    split_ifs <;> decide
  · rw [count_wellFormed_decodeWord, count_legal_highWord]
    rfl
  · rw [count_wellFormed_decodeWord, count_illegal_highWord]
    rfl

/-! ### The assembler and the disassembler -/

/-- Where an instruction has a word, the assembler emits it if the operands are legal (30_encoding.md R73). -/
theorem assemble_of_encode {i : Instr} {w : OpWord} (h : encode i = .word w) :
    assemble i = if wellFormed i then some w else none := by
  simp only [assemble, h]

/-- What the assembler emits is the encoder's word. -/
theorem encode_of_assemble {i : Instr} {w : OpWord} (h : assemble i = some w) : encode i = .word w := by
  cases henc : encode i with
  | word w' =>
    rw [assemble_of_encode henc, Option.ite_none_right_eq_some, Option.some_inj] at h
    rw [h.2]
  | extract source n => simp [assemble, henc] at h
  | embed stack needle n => simp [assemble, henc] at h
  | bpdecompose source => simp [assemble, henc] at h

/-- The encoder writes zero in every field the operation ignores (30_encoding.md R65, R75). -/
theorem encode_canonical (i : Instr) : Laws.CanonicalEncoding.Statement i := by
  cases i with
  | promote v n => exact Laws.CanonicalEncoding.promote v n
  | isolate v i => exact Laws.CanonicalEncoding.isolate v i
  | transplant dst src n => exact Laws.CanonicalEncoding.transplant dst src n
  | decompose v => exact Laws.CanonicalEncoding.decompose v
  | extract source n => exact Laws.CanonicalEncoding.extract source n
  | embed stack needle n => exact Laws.CanonicalEncoding.embed stack needle n
  | bpdecompose source => exact Laws.CanonicalEncoding.bpdecompose source

/-- Settles O6: both words decode to the same operation, and the assembler emits canonical words. -/
theorem ignoredFieldsDoNotMatter : Obligations.IgnoredFieldsDoNotMatter := by
  refine ⟨fun w w' s hop ha hp hb => ?_, fun i w h => encode_canonical i w (encode_of_assemble h)⟩
  have hdecode : decodeWord w = decodeWord w' := decodeWord_eq_of_used_fields hop ha hp hb
  exact ⟨by rw [hdecode], answer_eq_of_decode_eq hdecode, by rw [hdecode]⟩

/-- Settles O9: the word of each spelling, by its number. -/
theorem assemblerEmitsLegalWordsOnly : Obligations.AssemblerEmitsLegalWordsOnly := by
  refine ⟨fun v n => ?_, fun v i => ?_, fun dst src n => ?_, fun v => ?_⟩ <;>
    rw [assemble_of_encode rfl, packWord_eq_ofNat]
  · simp [wellFormed, legalWidth_iff]
  · simp [wellFormed, legalIndex_iff]
  · simp [wellFormed, legalWidth_iff]
  · simp [wellFormed]

/-- What a comment prints is the field's own value, so either is the one that is not zero. -/
theorem ne_and_eq_iff_eq_and_ne {α : Type} (x y z : α) : y ≠ z ∧ x = y ↔ x = y ∧ x ≠ z :=
  and_comm.trans (and_congr_right fun h => by rw [h])

/-- A disassembler comments on `P` exactly where a DECOMPOSE has it and it is not zero (30_encoding.md R75). -/
theorem ignoredP_mem_disassemble_iff (w : OpWord) (p : PField) :
    IgnoredField.p p ∈ (disassemble w).2 ↔ opField w = 0b11#2 ∧ p = pField w ∧ p ≠ 0#4 := by
  simp only [disassemble, List.mem_append, List.mem_ite_nil_right, List.mem_singleton, IgnoredField.p.injEq,
    reduceCtorEq, and_false, or_false, and_assoc, ne_and_eq_iff_eq_and_ne]

/-- It comments on `B` exactly where an operation other than TRANSPLANT has it and it is not zero. -/
theorem ignoredB_mem_disassemble_iff (w : OpWord) (b : Sample) :
    IgnoredField.b b ∈ (disassemble w).2 ↔ opField w ≠ 0b10#2 ∧ b = bField w ∧ b ≠ 0#8 := by
  simp only [disassemble, List.mem_append, List.mem_ite_nil_right, List.mem_singleton, IgnoredField.b.injEq,
    reduceCtorEq, and_false, false_or, and_assoc, ne_and_eq_iff_eq_and_ne]

/-- A canonical word has nothing to comment on. -/
theorem disassemble_canonicalWord_snd (w : OpWord) : (disassemble (canonicalWord w)).2 = [] := by
  refine List.eq_nil_iff_forall_not_mem.2 fun field hmem => ?_
  cases field with
  | p value =>
    obtain ⟨hop, hvalue, hne⟩ := (ignoredP_mem_disassemble_iff ..).1 hmem
    rw [opField_canonicalWord] at hop
    exact hne (hvalue.trans ((pField_canonicalWord w).trans (if_pos hop)))
  | b value =>
    obtain ⟨hop, hvalue, hne⟩ := (ignoredB_mem_disassemble_iff ..).1 hmem
    rw [opField_canonicalWord] at hop
    exact hne (hvalue.trans ((bField_canonicalWord w).trans (if_neg hop)))

/-- Settles O5, with `canonicalWord w` as the word encoded again. -/
theorem encodeOfDecodeZeroesIgnoredFields : Obligations.EncodeOfDecodeZeroesIgnoredFields := by
  intro w
  refine ⟨canonicalWord w, encode_decodeWord w, opField_canonicalWord w, aField_canonicalWord w, ?_, ?_, ?_, ?_, rfl,
    decodeWord_canonicalWord w, disassemble_canonicalWord_snd w, ignoredP_mem_disassemble_iff w,
    ignoredB_mem_disassemble_iff w⟩
  · exact fun h => (pField_canonicalWord w).trans (if_neg h)
  · exact fun h => (pField_canonicalWord w).trans (if_pos h)
  · exact fun h => (bField_canonicalWord w).trans (if_pos h)
  · exact fun h => (bField_canonicalWord w).trans (if_neg h)

end Machine

end Sys2Proof
end

section
/-! PROOFS for the sample operations (40_bitplaneshift.md): what PROMOTE, ISOLATE and TRANSPLANT answer with a legal
parameter, said of `exec` and of `sampleResult`; the source's formulas over unbounded integers (R105), for which the
8-bit mask and complement are read as natural numbers; and ISOLATE as a PROMOTE of one bit (R106). -/

namespace Sys2Proof

/-! ### The mask -/

/-- Settles O17: bit `k` of the mask is `k < n`, and a complement is the difference from all ones. -/
theorem maskBits : Obligations.MaskBits := by
  intro n
  refine ⟨toNat_mask n, (BitVec.allOnes_sub_eq_not (mask n)).symm, fun k hk => ⟨getLsbD_mask n k, ?_⟩⟩
  rw [BitVec.getLsbD_not, getLsbD_mask]
  simp [hk, ← decide_not]

/-! ### The formulas over unbounded integers -/

/-- Shifting 255 right loses nothing to the 8-bit word: it is the mask's number (40_bitplaneshift.md R100). -/
theorem shiftRight_255_eq_two_pow_sub_one (n : BitWidth) : 0xFF >>> (8 - n.val) = 2 ^ n.val - 1 :=
  (BitVec.toNat_ushiftRight 0xFF#8 _).symm.trans (toNat_mask n)

theorem toNat_promoteSample_eq_shiftLeft (v : Sample) (n : BitWidth) :
    (promoteSample v n).toNat = (v.toNat &&& (0xFF >>> (8 - n.val))) <<< (8 - n.val) := by
  rw [toNat_promoteSample, Safety.promoteNat, shiftRight_255_eq_two_pow_sub_one, Nat.and_two_pow_sub_one_eq_mod,
    Nat.shiftLeft_eq]

/-- The bit kept is worth `2^i`, and the shift by `7 - i` makes it worth 128. -/
theorem toNat_isolateSample_eq_shiftLeft (v : Sample) (i : BitIndex) :
    (isolateSample v i).toNat = (v.toNat &&& (1 <<< i.val)) <<< (7 - i.val) := by
  have hpow : 2 ^ i.val * 2 ^ (7 - i.val) = 128 := pow_mul_pow_sub 2 (Nat.le_of_lt_succ i.isLt)
  rw [isolateSample_eq, Nat.one_shiftLeft, Nat.and_two_pow, Nat.shiftLeft_eq, Nat.mul_assoc, hpow,
    BitVec.testBit_toNat]
  cases v.getLsbD i.val <;> rfl

/-- Clearing the bits of `y` in `x` needs no width: the complement only meets bits of `x`. -/
theorem toNat_and_not_eq_ldiff {w : Nat} (x y : BitVec w) : (x &&& ~~~y).toNat = Nat.ldiff x.toNat y.toNat := by
  apply Nat.eq_of_testBit_eq
  intro k
  rw [BitVec.testBit_toNat, BitVec.getLsbD_and, BitVec.getLsbD_not, Nat.testBit_ldiff, BitVec.testBit_toNat,
    BitVec.testBit_toNat]
  by_cases hk : k < w
  · simp [hk]
  · simp [hk, BitVec.getLsbD_of_ge x k (Nat.le_of_not_lt hk)]

/-- With `~m = -m - 1`, `(a & ~m) | c` over the integers is the natural number with the bits of `m` cleared in `a`. -/
theorem lor_land_neg_sub_one (a m c : Nat) :
    Int.lor (Int.land a (-(m : Int) - 1)) c = ((Nat.ldiff a m ||| c : Nat) : Int) := by
  rw [show -(m : Int) - 1 = Int.negSucc m by omega]
  rfl

theorem toNat_transplantSample_eq_lor_land (dst src : Sample) (n : BitWidth) :
    ((transplantSample dst src n).toNat : Int) =
      Int.lor (Int.land (dst.toNat : Int) (-(((0xFF >>> (8 - n.val) : Nat) : Int)) - 1))
        ((src.toNat >>> (8 - n.val) : Nat) : Int) := by
  rw [lor_land_neg_sub_one, transplantSample, BitVec.toNat_or, toNat_and_not_eq_ldiff, BitVec.toNat_ushiftRight,
    toNat_mask, shiftRight_255_eq_two_pow_sub_one]

/-! ### ISOLATE and PROMOTE -/

/-- Bit `i` of `v` is bit 0 of `v >> i`, which PROMOTE with `n = 1` puts at bit 7 (40_bitplaneshift.md R106). -/
theorem isolateSample_eq_promoteSample_shiftRight (v : Sample) (i : BitIndex) :
    isolateSample v i = promoteSample (v >>> i.val) ⟨1, by decide⟩ := by
  apply BitVec.eq_of_getLsbD_eq
  intro k hk
  rw [getLsbD_isolateSample, getLsbD_promoteSample _ _ _ hk, BitVec.getLsbD_ushiftRight]
  by_cases h : k = 7
  · simp [h]
  · simp [h, show ¬7 ≤ k by omega]

namespace Machine

/-! ### The answers with a legal parameter -/

theorem exec_promote_of_legal (v : Sample) {n : PField} (hn : 1 ≤ n.toNat ∧ n.toNat ≤ 8) (s : State) :
    exec (.promote v n) s = finish (.result (sampleBus (promoteSample v ⟨n.toNat, hn⟩))) s :=
  withBitWidth_of_legal hn s _

theorem exec_isolate_of_legal (v : Sample) {i : PField} (hi : i.toNat < 8) (s : State) :
    exec (.isolate v i) s = finish (.result (sampleBus (isolateSample v ⟨i.toNat, hi⟩))) s :=
  withBitIndex_of_legal hi s _

theorem exec_transplant_of_legal (dst src : Sample) {n : PField} (hn : 1 ≤ n.toNat ∧ n.toNat ≤ 8) (s : State) :
    exec (.transplant dst src n) s = finish (.result (sampleBus (transplantSample dst src ⟨n.toNat, hn⟩))) s :=
  withBitWidth_of_legal hn s _

/-- An operation that succeeds with an 8-bit result has that result as its `Y`. -/
theorem sampleResult_of_exec_eq_finish {i : Instr} {y : Sample}
    (h : ∀ s, exec i s = finish (.result (sampleBus y)) s) : sampleResult i = some y := by
  have hbus : busResult (encode i) = some (sampleBus y) :=
    busResult_of_exec_eq_finish fun s => (decode_encode i).symm ▸ h s
  rw [sampleResult, hbus, Option.map_some, busByte_sampleBus]

theorem sampleResult_promote (v : Sample) {n : PField} (hn : 1 ≤ n.toNat ∧ n.toNat ≤ 8) :
    sampleResult (.promote v n) = some (promoteSample v ⟨n.toNat, hn⟩) :=
  sampleResult_of_exec_eq_finish (exec_promote_of_legal v hn)

theorem sampleResult_isolate (v : Sample) {i : PField} (hi : i.toNat < 8) :
    sampleResult (.isolate v i) = some (isolateSample v ⟨i.toNat, hi⟩) :=
  sampleResult_of_exec_eq_finish (exec_isolate_of_legal v hi)

theorem sampleResult_transplant (dst src : Sample) {n : PField} (hn : 1 ≤ n.toNat ∧ n.toNat ≤ 8) :
    sampleResult (.transplant dst src n) = some (transplantSample dst src ⟨n.toNat, hn⟩) :=
  sampleResult_of_exec_eq_finish (exec_transplant_of_legal dst src hn)

/-- The bus of an ISOLATE result (40_bitplaneshift.md R102; 30_encoding.md R71). -/
theorem sampleBus_isolateSample (v : Sample) (i : BitIndex) :
    sampleBus (isolateSample v i) = if v.getLsbD i.val then 0x80#64 else 0x00#64 := by
  rw [isolateSample_eq]
  split <;> rfl

/-! ### The operations whole -/

/-- Settles O10: the result is `promoteSample`, whose number and bits are known; any other `P` fails the guard. -/
theorem promoteResult : Obligations.PromoteResult := by
  refine ⟨fun p b a => ?_, fun v n s h1 h8 => ?_, fun v n s h => exec_promote_of_illegal v (by omega) s⟩
  · rw [decodeWord_promote (opField_packWord ..), aField_packWord, pField_packWord]
  · refine ⟨promoteSample v ⟨n.toNat, h1, h8⟩, ?_, toNat_promoteSample .., getLsbD_promoteSample _ _⟩
    rw [← sampleBus_eq_ofNat]
    exact exec_promote_of_legal v ⟨h1, h8⟩ s

/-- Settles O11: the bus of `isolateSample` is `0x80` or 0 by bit `i`; any other `P` fails the guard. -/
theorem isolateResult : Obligations.IsolateResult := by
  refine ⟨fun p b a => ?_, fun v i s h => ?_, fun v i s h => exec_isolate_of_illegal v (by omega) s⟩
  · rw [decodeWord_isolate (opField_packWord ..), aField_packWord, pField_packWord]
  · have hi : i.toNat < 8 := Nat.lt_succ_of_le h
    rw [← sampleBus_isolateSample v ⟨i.toNat, hi⟩]
    exact exec_isolate_of_legal v hi s

/-- Settles O12: the result is `transplantSample`, whose number and bits are known; any other `P` fails the guard. -/
theorem transplantResult : Obligations.TransplantResult := by
  refine ⟨fun p b a => ?_, fun dst src n s h1 h8 => ?_,
    fun dst src n s h => exec_transplant_of_illegal dst src (by omega) s⟩
  · rw [decodeWord_transplant (opField_packWord ..), aField_packWord, bField_packWord, pField_packWord]
  · refine ⟨transplantSample dst src ⟨n.toNat, h1, h8⟩, ?_, toNat_transplantSample .., getLsbD_transplantSample _ _ _⟩
    rw [← sampleBus_eq_ofNat]
    exact exec_transplant_of_legal dst src ⟨h1, h8⟩ s

/-- Settles O18: each result, as a number, is its unbounded formula. -/
theorem unboundedFormulasAgreeWithEightBits : Obligations.UnboundedFormulasAgreeWithEightBits := by
  refine ⟨fun v n h1 h8 => ?_, fun v i h => ?_, fun dst src n h1 h8 => ?_⟩
  · exact ⟨_, sampleResult_promote v ⟨h1, h8⟩, congrArg Nat.cast (toNat_promoteSample_eq_shiftLeft ..)⟩
  · exact ⟨_, sampleResult_isolate v (Nat.lt_succ_of_le h), congrArg Nat.cast (toNat_isolateSample_eq_shiftLeft ..)⟩
  · exact ⟨_, sampleResult_transplant dst src ⟨h1, h8⟩, toNat_transplantSample_eq_lor_land ..⟩

/-- ISOLATE and PROMOTE of the shifted Sample have one result (45_laws.md R181). -/
theorem sampleResult_isolate_eq_promote (v : Sample) {i : PField} (hi : i.toNat < 8) :
    sampleResult (.isolate v i) = sampleResult (.promote (v >>> i.toNat) 1#4) := by
  rw [sampleResult_isolate v hi, sampleResult_promote (v >>> i.toNat) (n := 1#4) (by decide)]
  exact congrArg some (isolateSample_eq_promoteSample_shiftRight v ⟨i.toNat, hi⟩)

/-- Settles O36; the second clause is the first at `i = 0`, where nothing is shifted. -/
theorem isolateIsPromoteOfTheShiftedSample : Obligations.IsolateIsPromoteOfTheShiftedSample := by
  refine ⟨fun v i h => ?_, fun v => ?_⟩
  · have hi : i.toNat < 8 := Nat.lt_succ_of_le h
    exact ⟨_, sampleResult_isolate v hi, (sampleResult_isolate_eq_promote v hi).symm.trans (sampleResult_isolate v hi)⟩
  · simpa using sampleResult_isolate_eq_promote v (i := 0#4) (by decide)

end Machine

end Sys2Proof
end

section
/-! PROOFS for EMBED (41_embed.md): what it answers when one of its two checks fails; a complete Image has a Sample at
every position and at every flat index; and EMBED as its TRANSPLANT words, whose list is the two Images' Samples paired
in flat order. -/

namespace Sys2Proof

/-! ### A complete Image has every Sample -/

/-- Every position of a complete Image has a Sample (60_exceptions.md R204). -/
theorem Image.exists_sampleAt?_eq_some (img : Image) {row col c : Nat} (hr : row < img.shape.rows)
    (hc : col < img.shape.cols) (hch : c < img.shape.ch) : ∃ v, img.sampleAt? row col c = some v := by
  have hcontains : img.shape.contains row col c = true := (Shape.contains_iff ..).mpr ⟨hr, hc, hch⟩
  have hflat : img.shape.flat row col c < img.samples.length := img.complete ▸ img.shape.flat_lt_size hr hc hch
  exact ⟨img.samples[img.shape.flat row col c], by rw [sampleAt?, if_pos hcontains, List.getElem?_eq_getElem hflat]⟩

/-- Every flat index of a complete Image has a Sample (20_memory.md R43). -/
theorem Image.exists_samples_getElem?_eq_some (img : Image) {k : Nat} (hk : k < img.shape.size) :
    ∃ v, img.samples[k]? = some v :=
  ⟨img.samples[k]'(img.complete ▸ hk), List.getElem?_eq_getElem _⟩

namespace Machine

/-! ### EMBED whole -/

theorem exec_embed_of_illegal (stack needle : Image) {n : Nat} (hn : ¬(1 ≤ n ∧ n ≤ 8)) (s : State) :
    exec (.embed stack needle n) s = raise (.invalidBitWidth n) s :=
  withBitWidth_of_illegal hn s _

/-- EMBED with a legal `n` and unequal shapes fails its second check (41_embed.md R131). -/
theorem exec_embed_of_shape_ne {stack needle : Image} (h : stack.shape ≠ needle.shape) {n : Nat}
    (hn : 1 ≤ n ∧ n ≤ 8) (s : State) :
    exec (.embed stack needle n) s = raise (.shapeMismatch stack.shape needle.shape) s :=
  (withBitWidth_of_legal hn s _).trans (dif_neg h)

/-- Settles O15: the output is the pointwise `transplantSample`, whose number is known, and both Images have a Sample at
every position of their common shape; the other two clauses are the two checks failing. -/
theorem embedResult : Obligations.EmbedResult := by
  refine ⟨fun stack needle n s h1 h8 hs => ?_, fun stack needle n s h => exec_embed_of_illegal _ _ (by omega) s,
    fun stack needle n s h1 h8 h => exec_embed_of_shape_ne h ⟨h1, h8⟩ s⟩
  refine ⟨_, exec_embed_of_legal hs ⟨h1, h8⟩ s, rfl, fun row col c hr hc hch => ?_⟩
  obtain ⟨dst, hdst⟩ := stack.exists_sampleAt?_eq_some hr hc hch
  obtain ⟨src, hsrc⟩ := needle.exists_sampleAt?_eq_some (hs ▸ hr) (hs ▸ hc) (hs ▸ hch)
  refine ⟨dst, src, transplantSample dst src ⟨n, h1, h8⟩, hdst, hsrc, ?_, toNat_transplantSample ..⟩
  rw [Image.sampleAt?_zipSamples, hdst, hsrc]
  rfl

/-! ### EMBED as its TRANSPLANT words -/

/-- A TRANSPLANT word with a legal `n` raises no error (41_embed.md R133). -/
theorem answer_transplantWord (dst src : Sample) {n : PField} (hn : 1 ≤ n.toNat ∧ n.toNat ≤ 8) :
    answer (.word (packWord 0b10#2 n src dst)) =
      some (.result (sampleBus (transplantSample dst src ⟨n.toNat, hn⟩))) :=
  have hdecode : decode (.word (packWord 0b10#2 n src dst)) = .transplant dst src n :=
    decode_encode (.transplant dst src n)
  answer_of_exec_eq_finish (hdecode ▸ exec_transplant_of_legal dst src hn)

/-- One word per position. -/
theorem length_embedWords {stack needle : Image} (h : stack.shape = needle.shape) (n : PField) :
    (embedWords stack needle n).length = stack.shape.size := by
  rw [embedWords, List.length_zipWith, stack.complete, needle.complete, h, Nat.min_self]

/-- Settles O44: the words and the output Image pair the same Samples in flat order, the words by packing them and the
output by `transplantSample`, which is what the word of a pair is answered with. -/
theorem embedIsItsTransplantWords : Obligations.EmbedIsItsTransplantWords := by
  intro stack needle n h1 h8 hs
  refine ⟨_, imageResult_embed hs ⟨h1, h8⟩, length_embedWords hs n, fun k hk => ?_⟩
  obtain ⟨dst, hdst⟩ := stack.exists_samples_getElem?_eq_some hk
  obtain ⟨src, hsrc⟩ := needle.exists_samples_getElem?_eq_some (hs ▸ hk)
  refine ⟨dst, src, transplantSample dst src ⟨n.toNat, h1, h8⟩, hdst, hsrc, ?_,
    answer_transplantWord dst src ⟨h1, h8⟩, ?_⟩
  · simp only [embedWords, List.getElem?_zipWith, hdst, hsrc]
  · simp only [Image.zipSamples_samples, List.getElem?_zipWith, hdst, hsrc]

end Machine

end Sys2Proof
end

section
/-! PROOFS for EXTRACT (42_extract.md): what it answers when the check on `n` fails; its output Sample by Sample; and
EXTRACT as its PROMOTE words, whose list is the source's Samples in flat order. -/

namespace Sys2Proof.Machine

/-! ### EXTRACT whole -/

theorem exec_extract_of_illegal (source : Image) {n : Nat} (hn : ¬(1 ≤ n ∧ n ≤ 8)) (s : State) :
    exec (.extract source n) s = raise (.invalidBitWidth n) s :=
  withBitWidth_of_illegal hn s _

/-- Settles O14: the output is the pointwise `promoteSample`, whose number is known, and the source has a Sample at every
position; any other `n` fails the guard. -/
theorem extractResult : Obligations.ExtractResult := by
  refine ⟨fun source n s h1 h8 => ?_, fun source n s h => exec_extract_of_illegal source (by omega) s⟩
  refine ⟨_, exec_extract_of_legal source ⟨h1, h8⟩ s, rfl, fun row col c hr hc hch => ?_⟩
  obtain ⟨v, hv⟩ := source.exists_sampleAt?_eq_some hr hc hch
  refine ⟨v, promoteSample v ⟨n, h1, h8⟩, hv, ?_, toNat_promoteSample ..⟩
  rw [Image.sampleAt?_mapSamples, hv, Option.map_some]

/-! ### EXTRACT as its PROMOTE words -/

/-- A PROMOTE word with a legal `n` raises no error (42_extract.md R141). -/
theorem answer_promoteWord (v : Sample) {n : PField} (hn : 1 ≤ n.toNat ∧ n.toNat ≤ 8) :
    answer (.word (packWord 0b00#2 n 0#8 v)) = some (.result (sampleBus (promoteSample v ⟨n.toNat, hn⟩))) :=
  have hdecode : decode (.word (packWord 0b00#2 n 0#8 v)) = .promote v n := decode_encode (.promote v n)
  answer_of_exec_eq_finish (hdecode ▸ exec_promote_of_legal v hn)

/-- One word per position. -/
theorem length_extractWords (source : Image) (n : PField) : (extractWords source n).length = source.shape.size := by
  rw [extractWords, List.length_map, source.complete]

/-- Settles O45: the words and the output Image are both maps of the source's Samples in flat order, the words by packing
them and the output by `promoteSample`, which is what the word of a Sample is answered with. -/
theorem extractIsItsPromoteWords : Obligations.ExtractIsItsPromoteWords := by
  intro source n h1 h8
  refine ⟨_, imageResult_extract source ⟨h1, h8⟩, length_extractWords source n, fun k hk => ?_⟩
  obtain ⟨v, hv⟩ := source.exists_samples_getElem?_eq_some hk
  refine ⟨v, promoteSample v ⟨n.toNat, h1, h8⟩, hv, ?_, answer_promoteWord v ⟨h1, h8⟩, ?_⟩
  · rw [extractWords, List.getElem?_map, hv, Option.map_some]
  · rw [Image.mapSamples_samples, List.getElem?_map, hv, Option.map_some]

end Sys2Proof.Machine
end

section
/-! PROOFS for the bit-plane decomposer (43_decompose.md). Bit `k` of the result bus is bit `k % 8` of its byte `k / 8`,
so a bus of planes is known bit by bit from its planes; an index 0 to 7 read back from a `P` field is itself, so ISOLATE
at each of them succeeds with the plane DECOMPOSE puts in that byte; and BPDECOMPOSE is its DECOMPOSE words, whose list
is the source's Samples in flat order. -/

namespace Sys2Proof

/-! ### The result bus bit by bit -/

/-- Each bit of the bus is in one byte of it (30_encoding.md R72). -/
theorem getLsbD_eq_busByte (r : Bus) {k : Nat} (hk : k < 64) :
    r.getLsbD k = (busByte r ⟨k / 8, by omega⟩).getLsbD (k % 8) := by
  rw [busByte, BitVec.getLsbD_extractLsb', decide_eq_true (Nat.mod_lt k (by decide)), Bool.true_and, Nat.div_add_mod]

/-- Lane `i` writes bit `8i+7` only, and writes `v[i]` there (43_decompose.md R150). -/
theorem getLsbD_planeBus_isolateSample (v : Sample) {k : Nat} (hk : k < 64) :
    (planeBus fun i => isolateSample v i).getLsbD k = (decide (k % 8 = 7) && v.getLsbD (k / 8)) := by
  rw [getLsbD_eq_busByte _ hk, busByte_planeBus, getLsbD_isolateSample]

namespace Machine

/-! ### DECOMPOSE and BPDECOMPOSE whole -/

/-- DECOMPOSE has no check and cannot fail (43_decompose.md R150). -/
theorem exec_decompose (v : Sample) (s : State) :
    exec (.decompose v) s = finish (.result (planeBus fun i => isolateSample v i)) s := rfl

/-- Settles O13: the result is the bus of the eight planes, known bit by bit. -/
theorem decomposeResult : Obligations.DecomposeResult := by
  refine ⟨fun p b a => ?_, fun v s => ⟨_, exec_decompose v s, fun k hk => getLsbD_planeBus_isolateSample v hk⟩⟩
  rw [decodeWord_decompose (opField_packWord ..), aField_packWord]

/-- BPDECOMPOSE has no check and cannot fail (43_decompose.md R155). -/
theorem exec_bpdecompose (source : Image) (s : State) :
    exec (.bpdecompose source) s = finish (.planes (Vector.ofFn fun i => planeImage source i)) s := rfl

/-- Settles O16: output `i` is the pointwise `isolateSample`, which is `0x80` or 0 by bit `i`, and the source has a
Sample at every position. -/
theorem bpdecomposeResult : Obligations.BpdecomposeResult := by
  intro source s
  refine ⟨_, exec_bpdecompose source s, fun i => ?_⟩
  rw [Fin.getElem_fin, Vector.getElem_ofFn]
  refine ⟨rfl, fun row col c hr hc hch => ?_⟩
  obtain ⟨v, hv⟩ := source.exists_sampleAt?_eq_some hr hc hch
  exact ⟨v, hv, by rw [planeImage, Image.sampleAt?_mapSamples, hv, Option.map_some, isolateSample_eq]⟩

/-! ### DECOMPOSE as eight ISOLATE operations -/

/-- A bit index fits the `P` field, so ISOLATE at it succeeds with that plane (40_bitplaneshift.md R102). -/
theorem exec_isolate_bitIndex (v : Sample) (i : BitIndex) (s : State) :
    exec (.isolate v (BitVec.ofNat 4 i.val)) s = finish (.result (sampleBus (isolateSample v i))) s := by
  have hval : (BitVec.ofNat 4 i.val).toNat = i.val := Nat.mod_eq_of_lt (i.isLt.trans (by decide))
  simp only [exec_isolate_of_legal v (hval ▸ i.isLt), hval]

theorem planeResult_eq_isolateSample (v : Sample) (i : BitIndex) : planeResult v i = some (isolateSample v i) := by
  rw [planeResult, encode, busResult_decomposeWord, Option.map_some, busByte_planeBus]

/-- Settles O37: both are plane `i` of `v`. -/
theorem decomposeIsEightIsolates : Obligations.DecomposeIsEightIsolates := fun v i =>
  ⟨_, planeResult_eq_isolateSample v i, sampleResult_of_exec_eq_finish (exec_isolate_bitIndex v i)⟩

/-! ### BPDECOMPOSE as its DECOMPOSE words -/

/-- A DECOMPOSE word raises no error (43_decompose.md R156). -/
theorem answer_decomposeWord (v : Sample) :
    answer (.word (packWord 0b11#2 0x0#4 0x00#8 v)) = some (.result (planeBus fun i => isolateSample v i)) :=
  have hdecode : decode (.word (packWord 0b11#2 0x0#4 0x00#8 v)) = .decompose v := decode_encode (.decompose v)
  answer_of_exec_eq_finish (hdecode ▸ exec_decompose v)

theorem busResult_isolateWord (v : Sample) (i : BitIndex) :
    busResult (.word (packWord 0b01#2 (BitVec.ofNat 4 i.val) 0x00#8 v)) = some (sampleBus (isolateSample v i)) :=
  have hdecode : decode (.word (packWord 0b01#2 (BitVec.ofNat 4 i.val) 0x00#8 v)) = .isolate v (BitVec.ofNat 4 i.val) :=
    decode_encode (.isolate v (BitVec.ofNat 4 i.val))
  busResult_of_exec_eq_finish (hdecode ▸ exec_isolate_bitIndex v i)

/-- One word per position. -/
theorem length_bpdecomposeWords (source : Image) : (bpdecomposeWords source).length = source.shape.size := by
  rw [bpdecomposeWords, List.length_map, source.complete]

/-- Settles O46: the words and every output Image are maps of the source's Samples in flat order, the words by packing
them and output `i` by `isolateSample`, which is byte `i` of what the word of a Sample is answered with and the result
of its ISOLATE word for `i`. -/
theorem bpdecomposeIsItsDecomposeWords : Obligations.BpdecomposeIsItsDecomposeWords := by
  intro source
  refine ⟨_, planesResult_bpdecompose source, length_bpdecomposeWords source, fun k hk => ?_⟩
  obtain ⟨v, hv⟩ := source.exists_samples_getElem?_eq_some hk
  refine ⟨v, _, hv, ?_, answer_decomposeWord v, fun i => ?_⟩
  · rw [bpdecomposeWords, List.getElem?_map, hv, Option.map_some]
  · rw [busByte_planeBus]
    refine ⟨?_, busResult_isolateWord v i⟩
    rw [Fin.getElem_fin, Vector.getElem_ofFn, planeImage, Image.mapSamples_samples, List.getElem?_map, hv,
      Option.map_some]

end Machine

end Sys2Proof
end

section
/-! PROOFS for the laws (45_laws.md). Read as shifts, PROMOTE is `v << (8-n)` and TRANSPLANT joins the stack's high bits
`(d >> n) << n` to the needle's `s >> (8-n)`; these two forms and the two parts of a TRANSPLANT result
(`transplantSample_ushiftRight`, `transplantSample_and_mask`) give the laws of one Sample. The frame forms carry them to
every position. -/

namespace Sys2Proof

/-! ### Clearing and keeping bits -/

theorem getLsbD_255_ushiftRight (n k : Nat) : (0xFF#8 >>> n).getLsbD k = decide (n + k < 8) := by
  rw [BitVec.getLsbD_ushiftRight]
  exact BitVec.getLsbD_allOnes

/-- Shifting out the low `k` bits and back clears them (45_laws.md R170: `hi(s, n)` two ways). -/
theorem ushiftRight_shiftLeft_eq_and_not (v : Sample) {k n : Nat} (h : k + n = 8) :
    v >>> k <<< k = v &&& ~~~(0xFF#8 >>> n) := by
  apply BitVec.eq_of_getLsbD_eq
  intro j hj
  rw [BitVec.getLsbD_shiftLeft, BitVec.getLsbD_ushiftRight, BitVec.getLsbD_and, BitVec.getLsbD_not,
    getLsbD_255_ushiftRight]
  by_cases hk : j < k
  · simp [hk, show n + j < 8 by omega]
  · simp [hk, hj, show ¬n + j < 8 by omega, show k + (j - k) = j by omega]

/-- Only the zero value is unchanged by a left shift: shifted again and again it loses every bit. -/
theorem shiftLeft_eq_self_iff {w : Nat} (y : BitVec w) {k : Nat} (hk : 0 < k) : y <<< k = y ↔ y = 0#w := by
  refine ⟨fun h => ?_, fun h => by simp [h]⟩
  have hrepeat : ∀ m, y <<< (k * m) = y := by
    intro m
    induction m with
    | zero => exact BitVec.shiftLeft_zero y
    | succ m ih => rw [Nat.mul_succ, BitVec.shiftLeft_add, ih, h]
  rw [← hrepeat w]
  exact BitVec.shiftLeft_eq_zero (Nat.le_mul_of_pos_left w hk)

/-! ### TRANSPLANT -/

theorem transplantSample_eq_shifts (dst src : Sample) (n : BitWidth) :
    transplantSample dst src n = dst >>> n.val <<< n.val ||| src >>> (8 - n.val) := by
  rw [transplantSample, mask, ushiftRight_shiftLeft_eq_and_not dst (Nat.add_sub_of_le n.property.2)]

/-- TRANSPLANT keeps the stack's high bits (45_laws.md R178). -/
theorem transplantSample_ushiftRight (dst src : Sample) (n : BitWidth) :
    transplantSample dst src n >>> n.val = dst >>> n.val := by
  apply BitVec.eq_of_getLsbD_eq
  intro k _
  rw [BitVec.getLsbD_ushiftRight, BitVec.getLsbD_ushiftRight]
  by_cases h : n.val + k < 8
  · rw [getLsbD_transplantSample _ _ _ _ h, if_neg (by omega)]
  · rw [BitVec.getLsbD_of_ge _ _ (by omega), BitVec.getLsbD_of_ge _ _ (by omega)]

/-- TRANSPLANT takes the needle's high bits (45_laws.md R178). -/
theorem transplantSample_and_mask (dst src : Sample) (n : BitWidth) :
    transplantSample dst src n &&& mask n = src >>> (8 - n.val) := by
  apply BitVec.eq_of_getLsbD_eq
  intro k hk
  rw [BitVec.getLsbD_and, getLsbD_transplantSample _ _ _ _ hk, getLsbD_mask, BitVec.getLsbD_ushiftRight]
  by_cases h : k < n.val
  · simp [h, Nat.add_comm]
  · simp [h, BitVec.getLsbD_of_ge src (8 - n.val + k) (by have := n.property; omega)]

/-- TRANSPLANT depends on its operands only through the bits it keeps of them (45_laws.md R178). -/
theorem transplantSample_congr {dst dst' src src' : Sample} {n : BitWidth} (hdst : dst >>> n.val = dst' >>> n.val)
    (hsrc : src >>> (8 - n.val) = src' >>> (8 - n.val)) :
    transplantSample dst src n = transplantSample dst' src' n := by
  rw [transplantSample_eq_shifts, transplantSample_eq_shifts, hdst, hsrc]

/-- Embedding the same needle again changes nothing (45_laws.md R171 (b)). -/
theorem transplantSample_transplantSample (dst src : Sample) (n : BitWidth) :
    transplantSample (transplantSample dst src n) src n = transplantSample dst src n :=
  transplantSample_congr (transplantSample_ushiftRight dst src n) rfl

/-- With `n = 8` nothing of the stack is kept (45_laws.md R174). -/
theorem transplantSample_eight (dst src : Sample) : transplantSample dst src ⟨8, by decide⟩ = src := by
  simp [transplantSample_eq_shifts, BitVec.ushiftRight_eq_zero]

theorem ushiftRight_seven_eq_ite (v : Sample) : v >>> 7 = if v.getLsbD 7 then 1#8 else 0#8 := by
  apply BitVec.eq_of_getLsbD_eq
  intro k _
  rw [BitVec.getLsbD_ushiftRight]
  by_cases h : k = 0
  · subst h
    cases v.getLsbD 7 <;> rfl
  · rw [BitVec.getLsbD_of_ge _ _ (by omega)]
    split <;> simp [h]

/-! ### PROMOTE -/

/-- The bits the mask clears would be shifted out anyway. -/
theorem promoteSample_eq_shiftLeft (v : Sample) (n : BitWidth) : promoteSample v n = v <<< (8 - n.val) := by
  apply BitVec.eq_of_getLsbD_eq
  intro k hk
  rw [getLsbD_promoteSample _ _ _ hk, BitVec.getLsbD_shiftLeft, decide_eq_true hk, Bool.true_and, ← decide_not]
  simp only [Nat.not_lt]

/-- With `n = 8` nothing is moved (45_laws.md R174). -/
theorem promoteSample_eight (v : Sample) : promoteSample v ⟨8, by decide⟩ = v :=
  (promoteSample_eq_shiftLeft v _).trans (BitVec.shiftLeft_zero v)

/-- PROMOTE leaves its low `8 - n` bits zero (45_laws.md R179). -/
theorem promoteSample_and_low (v : Sample) (n : BitWidth) : promoteSample v n &&& (0xFF#8 >>> n.val) = 0#8 := by
  apply BitVec.eq_of_getLsbD_eq
  intro k hk
  rw [BitVec.getLsbD_and, getLsbD_promoteSample _ _ _ hk, getLsbD_255_ushiftRight]
  by_cases h : n.val + k < 8
  · simp [show ¬8 - n.val ≤ k by omega]
  · simp [h]

/-- Shifting back finds the low `n` bits of the source (45_laws.md R179). -/
theorem promoteSample_ushiftRight (v : Sample) (n : BitWidth) : promoteSample v n >>> (8 - n.val) = v &&& mask n := by
  apply BitVec.eq_of_getLsbD_eq
  intro k _
  rw [BitVec.getLsbD_ushiftRight, BitVec.getLsbD_and, getLsbD_mask]
  have hn := n.property
  by_cases h : k < n.val
  · rw [getLsbD_promoteSample _ _ _ (by omega)]
    simp [h]
  · simp [h, BitVec.getLsbD_of_ge (promoteSample v n) (8 - n.val + k) (by omega)]

/-- Every value is its own stack and, promoted, its own needle (45_laws.md R178: TRANSPLANT takes every value). -/
theorem transplantSample_self_promoteSample (y : Sample) (n : BitWidth) :
    transplantSample y (promoteSample y n) n = y := by
  rw [transplantSample, promoteSample_ushiftRight, ← BitVec.and_or_distrib_left, BitVec.not_or_self,
    BitVec.and_allOnes]

/-- PROMOTE twice has shifted twice; 8 bits or more leave nothing (45_laws.md R182). -/
theorem promoteSample_promoteSample_eq_zero (v : Sample) {n : BitWidth} (h : n.val ≤ 4) :
    promoteSample (promoteSample v n) n = 0#8 := by
  rw [promoteSample_eq_shiftLeft, promoteSample_eq_shiftLeft, ← BitVec.shiftLeft_add]
  exact BitVec.shiftLeft_eq_zero (by omega)

theorem promoteSample_eq_zero_iff (v : Sample) (n : BitWidth) : promoteSample v n = 0#8 ↔ 2 ^ n.val ∣ v.toNat := by
  rw [← BitVec.toNat_inj, toNat_promoteSample, Safety.promoteNat, Nat.dvd_iff_mod_eq_zero]
  simp

/-- Below the full width, the Samples PROMOTE treats alike once and twice are those it leaves no bit of
(45_laws.md R182). -/
theorem promoteSample_promoteSample_eq_self_iff (v : Sample) {n : BitWidth} (h : n.val ≤ 7) :
    promoteSample (promoteSample v n) n = promoteSample v n ↔ 2 ^ n.val ∣ v.toNat := by
  rw [promoteSample_eq_shiftLeft (promoteSample v n), shiftLeft_eq_self_iff _ (by omega), promoteSample_eq_zero_iff]

/-- The needle's top bit is found at the top again exactly by the width it was embedded with (45_laws.md R184). -/
theorem getLsbD_seven_promoteSample_transplantSample (n m : BitWidth) :
    (promoteSample (transplantSample 0x00#8 0x80#8 n) m).getLsbD 7 = decide (m.val = n.val) := by
  have hn := n.property
  have hm := m.property
  have htop : ∀ k, (0x80#8).getLsbD k = decide (7 = k) := fun k => (BitVec.getLsbD_twoPow 7 k).trans (Bool.true_and _)
  rw [getLsbD_promoteSample _ _ _ (by decide), getLsbD_transplantSample _ _ _ _ (by omega), htop,
    decide_eq_true (show 8 - m.val ≤ 7 by omega), Bool.true_and]
  by_cases h : 7 - (8 - m.val) < n.val
  · simp only [if_pos h, show 7 = 7 - (8 - m.val) + (8 - n.val) ↔ m.val = n.val by omega]
  · simp [h, show m.val ≠ n.val by omega]

/-- So with another width the high bits of `0x80` do not come back (45_laws.md R184). -/
theorem promoteSample_transplantSample_ne_of_width_ne {n m : BitWidth} (h : m.val ≠ n.val) :
    promoteSample (transplantSample 0x00#8 0x80#8 n) m ≠ 0x80#8 &&& ~~~(0xFF#8 >>> n.val) := by
  have hlost : (promoteSample (transplantSample 0x00#8 0x80#8 n) m).getLsbD 7 = false := by
    rw [getLsbD_seven_promoteSample_transplantSample, decide_eq_false h]
  have hkept : (0x80#8 &&& ~~~(0xFF#8 >>> n.val)).getLsbD 7 = true := by
    have hn := n.property
    rw [BitVec.getLsbD_and, BitVec.getLsbD_not, getLsbD_255_ushiftRight,
      decide_eq_false (show ¬n.val + 7 < 8 by omega)]
    rfl
  exact fun heq => Bool.false_ne_true (hlost.symm.trans (heq ▸ hkept))

/-! ### Multiples of `2^n` among the Samples -/

theorem count_not (p : Nat → Prop) [DecidablePred p] (n : Nat) :
    Nat.count (fun k => ¬p k) n = n - Nat.count p n := by
  have hsum : Nat.count p n + Nat.count (fun k => ¬p k) n = n := by
    simp only [Nat.count_eq_card_filter_range, Finset.card_filter_add_card_filter_not, Finset.card_range]
  omega

/-- Of the 256 Samples, those with their low `n` bits zero. -/
theorem count_two_pow_dvd {n : Nat} (h : n ≤ 8) : Nat.count (fun k => 2 ^ n ∣ k) 256 = 2 ^ (8 - n) := by
  simp only [← Nat.modEq_zero_iff_dvd, Nat.count_modEq_card 256 (Nat.two_pow_pos n)]
  interval_cases n <;> rfl

/-! ### The planes -/

theorem isolateSample_eq_128_iff (v : Sample) (i : BitIndex) : isolateSample v i = 0x80#8 ↔ v.getLsbD i.val = true := by
  rw [isolateSample_eq]
  cases v.getLsbD i.val <;> simp

theorem isolateSample_eq_128_or_eq_zero (v : Sample) (i : BitIndex) :
    isolateSample v i = 0x80#8 ∨ isolateSample v i = 0x00#8 :=
  isolateSample_eq v i ▸ ite_eq_or_eq ..

theorem isolateSample_ne_zero_iff_eq_128 (v : Sample) (i : BitIndex) :
    isolateSample v i ≠ 0x00#8 ↔ isolateSample v i = 0x80#8 := by
  obtain h | h := isolateSample_eq_128_or_eq_zero v i <;> simp [h]

/-- Never 255, against the literal of the source (90_conflicts.md C1). -/
theorem isolateSample_ne_255 (v : Sample) (i : BitIndex) : isolateSample v i ≠ 0xFF#8 := by
  obtain h | h := isolateSample_eq_128_or_eq_zero v i <;> simp [h]

theorem getLsbD_seven_isolateSample (v : Sample) (i : BitIndex) : (isolateSample v i).getLsbD 7 = v.getLsbD i.val :=
  (getLsbD_isolateSample v i 7).trans (Bool.true_and _)

theorem sum_range_and_two_pow (x n : Nat) : ∑ i ∈ Finset.range n, (x &&& 2 ^ i) = x % 2 ^ n := by
  induction n with
  | zero => simp [Nat.mod_one]
  | succ n ih => rw [Finset.sum_range_succ, ih, Nat.and_two_pow, Nat.toNat_testBit, Nat.mod_pow_succ, Nat.mul_comm]

theorem toNat_eq_sum_isolateSample (v : Sample) :
    v.toNat = ∑ i : BitIndex, (isolateSample v i).toNat >>> (7 - i.val) := by
  simp only [toNat_isolateSample_eq_shiftLeft, Nat.shiftLeft_shiftRight, Nat.one_shiftLeft]
  rw [← Finset.sum_range fun i => v.toNat &&& 2 ^ i, sum_range_and_two_pow, Nat.mod_eq_of_lt v.isLt]

/-! ### Images -/

theorem Image.mapSamples_of_forall_eq {f : Sample → Sample} (hf : ∀ v, f v = v) (img : Image) :
    img.mapSamples f = img :=
  Image.eq_of_samples rfl (List.map_id'' hf img.samples)

theorem Image.zipSamples_of_forall_eq_snd {f : Sample → Sample → Sample} (hf : ∀ x y, f x y = y) {a b : Image}
    (h : a.shape = b.shape) : a.zipSamples f b h = b := by
  have hlen : b.samples.length ≤ a.samples.length := by rw [a.complete, b.complete, h]
  obtain rfl : f = fun _ y => y := funext₂ hf
  exact Image.eq_of_samples h ((zipWith_snd_eq_map id hlen).trans (List.map_id _))

theorem zipWith_zipWith_right_self {α β : Type} {f : α → β → α} (hf : ∀ x y, f (f x y) y = f x y) (as : List α)
    (bs : List β) : List.zipWith f (List.zipWith f as bs) bs = List.zipWith f as bs := by
  induction as generalizing bs with
  | nil => rfl
  | cons a as ih =>
    cases bs with
    | nil => rfl
    | cons b bs => simp only [List.zipWith_cons_cons, hf, ih]

/-- A combination that changes nothing done twice changes no Image done twice. -/
theorem Image.zipSamples_zipSamples_self {f : Sample → Sample → Sample} (hf : ∀ x y, f (f x y) y = f x y)
    {a b : Image} (h : a.shape = b.shape) : (a.zipSamples f b h).zipSamples f b h = a.zipSamples f b h :=
  Image.eq_of_samples rfl (zipWith_zipWith_right_self hf a.samples b.samples)

namespace Machine

theorem sampleAt?_planeImage (source : Image) (i : BitIndex) (row col c : Nat) :
    (planeImage source i).sampleAt? row col c = (source.sampleAt? row col c).map fun v => isolateSample v i :=
  Image.sampleAt?_mapSamples _ source row col c

/-- Settles O40: V1 and V2 are the words of `TRANSPLANT 240, 170, 4` and `PROMOTE 250, 4`. -/
theorem concreteScenario : Obligations.ConcreteScenario := by
  have hV1 : 0x24AAF0#22 = packWord 0b10#2 4#4 0xAA#8 0xF0#8 := by decide
  have hV2 : 0x0400FA#22 = packWord 0b00#2 4#4 0x00#8 0xFA#8 := by decide
  refine ⟨?_, ?_⟩
  · rw [hV1, answer_transplantWord _ _ (by decide)]
    rfl
  · rw [hV2, answer_promoteWord _ (by decide)]
    rfl

/-- Settles O21: a difference in a component is a difference of the shapes, which fails EMBED's second check. -/
theorem anyShapeDifferenceRaisesShapeMismatch : Obligations.AnyShapeDifferenceRaisesShapeMismatch := by
  intro stack needle n s h1 h8 hdiff
  have hshape : stack.shape ≠ needle.shape := by
    intro h
    simp [h] at hdiff
  exact ⟨_, exec_embed_of_shape_ne hshape ⟨h1, h8⟩ s, rfl, rfl, rfl⟩

/-- Settles O27: PROMOTE after TRANSPLANT shifts the needle's Sample down and up again, which clears its low bits, and
in frame form this holds at every position. -/
theorem roundTripBound : Obligations.RoundTripBound := by
  refine ⟨fun d s n h1 h8 => ?_, fun stack needle n h1 h8 hs => ?_⟩
  · refine ⟨_, sampleResult_transplant d s ⟨h1, h8⟩, ?_,
      ushiftRight_shiftLeft_eq_and_not s (Nat.sub_add_cancel h8)⟩
    rw [sampleResult_promote _ ⟨h1, h8⟩, promoteSample_transplantSample]
  · refine ⟨_, _, imageResult_embed hs ⟨h1, h8⟩, imageResult_extract_embedded hs ⟨h1, h8⟩, rfl, fun row col c => ?_⟩
    simp only [Image.sampleAt?_mapSamples, ushiftRight_shiftLeft_eq_and_not _ (Nat.sub_add_cancel h8)]

/-- Settles O28: TRANSPLANT into its own result finds the same high bits to keep, at every position. -/
theorem reembeddingChangesNothing : Obligations.ReembeddingChangesNothing := by
  refine ⟨fun d s n h1 h8 => ?_, fun stack needle n h1 h8 hs => ?_⟩
  · refine ⟨_, sampleResult_transplant d s ⟨h1, h8⟩, ?_⟩
    rw [sampleResult_transplant _ s ⟨h1, h8⟩, transplantSample_transplantSample]
  · refine ⟨_, imageResult_embed hs ⟨h1, h8⟩, ?_⟩
    have hidem := fun d s => transplantSample_transplantSample d s ⟨n, h1, h8⟩
    rw [imageResult_embed (stack := stack.zipSamples _ needle hs) hs ⟨h1, h8⟩,
      Image.zipSamples_zipSamples_self hidem]

/-- Settles O29: an ISOLATE result is 128 or 0 by the bit, and neither is 255. -/
theorem isolateGivesBitAtTop : Obligations.IsolateGivesBitAtTop := by
  intro v i h
  have hi : i.toNat < 8 := Nat.lt_succ_of_le h
  exact ⟨_, sampleResult_isolate v hi, isolateSample_eq v ⟨i.toNat, hi⟩, isolateSample_ne_255 v _⟩

theorem sampleResult_promote_eight (v : Sample) : sampleResult (.promote v 8#4) = some v :=
  (sampleResult_promote v (n := 8#4) (by decide)).trans (congrArg some (promoteSample_eight v))

/-- Settles O30: with `n = 8` TRANSPLANT is its `src` and PROMOTE the identity, at every position. -/
theorem fullWidthIsIdentity : Obligations.FullWidthIsIdentity := by
  refine ⟨fun d s => ?_, sampleResult_promote_eight, fun stack needle h => ?_, fun source => ?_⟩
  · exact (sampleResult_transplant d s (n := 8#4) (by decide)).trans (congrArg some (transplantSample_eight d s))
  · rw [imageResult_embed h (by decide), Image.zipSamples_of_forall_eq_snd transplantSample_eight]
  · rw [imageResult_extract source (by decide), Image.mapSamples_of_forall_eq promoteSample_eight]

/-- Settles O31: the complement of the mask is `0xFE`, and the needle shifted down by 7 is its bit 7. -/
theorem singleBitEmbed : Obligations.SingleBitEmbed := by
  intro d s
  refine ⟨_, sampleResult_transplant d s (n := 1#4) (by decide), ?_, fun k hk hk' => ?_, ?_⟩
  · rw [← ushiftRight_seven_eq_ite]
    rfl
  · rw [getLsbD_transplantSample _ _ _ _ (by omega)]
    exact if_neg (Nat.not_lt.mpr hk)
  · exact getLsbD_transplantSample d s ⟨1, by decide⟩ 0 (by decide)

/-- Settles O32: the planes are those of ISOLATE, whose top bit is the bit isolated and which, shifted back, add up to
the Sample; BPDECOMPOSE has them at every position. -/
theorem planesReconstructTheSample : Obligations.PlanesReconstructTheSample := by
  refine ⟨fun v => ?_, fun source => ?_⟩
  · refine ⟨isolateSample v, planeResult_eq_isolateSample v, fun i => ⟨?_, ?_, isolateSample_ne_255 v i⟩, fun i => ?_,
      toNat_eq_sum_isolateSample v⟩
    · rw [getLsbD_seven_isolateSample, isolateSample_eq_128_iff]
    · rw [getLsbD_seven_isolateSample, isolateSample_ne_zero_iff_eq_128, isolateSample_eq_128_iff]
    · rw [getLsbD_seven_isolateSample]
  · refine ⟨_, planesResult_bpdecompose source, fun row col c hr hc hch => ?_⟩
    obtain ⟨v, hv⟩ := source.exists_sampleAt?_eq_some hr hc hch
    refine ⟨v, isolateSample v, hv, fun i => ⟨?_, (getLsbD_seven_isolateSample v i).symm⟩,
      toNat_eq_sum_isolateSample v⟩
    rw [Fin.getElem_fin, Vector.getElem_ofFn, sampleAt?_planeImage, hv, Option.map_some]

/-- Settles O33: a TRANSPLANT result is the stack's high bits and the needle's, and nothing else. -/
theorem transplantKeepsStackHighTakesNeedleHigh : Obligations.TransplantKeepsStackHighTakesNeedleHigh := by
  intro n h1 h8
  refine ⟨fun d s => ?_, fun d d' s s' hd hs => ?_, fun y => ?_⟩
  · exact ⟨_, sampleResult_transplant d s ⟨h1, h8⟩, fun _ => transplantSample_ushiftRight ..,
      transplantSample_and_mask ..⟩
  · rw [sampleResult_transplant d s ⟨h1, h8⟩, sampleResult_transplant d' s' ⟨h1, h8⟩, transplantSample_congr hd hs]
  · refine ⟨y, promoteSample y ⟨n.toNat, h1, h8⟩, ?_⟩
    rw [sampleResult_transplant _ _ ⟨h1, h8⟩, transplantSample_self_promoteSample]

/-- Settles O34: the low bits are zero, and shifting back finds the Sample's low `n` bits. -/
theorem promoteZeroesTheLowEnd : Obligations.PromoteZeroesTheLowEnd := by
  intro v n h1 h7
  have hn : 1 ≤ n.toNat ∧ n.toNat ≤ 8 := ⟨h1, h7.trans (by decide)⟩
  exact ⟨_, sampleResult_promote v hn, promoteSample_and_low v ⟨n.toNat, hn⟩,
    promoteSample_ushiftRight v ⟨n.toNat, hn⟩⟩

/-- Settles O35: plane `i` is `0x80` exactly where bit `i` is one, so both filters are one set. -/
theorem planeValuesAndTheirNumber : Obligations.PlaneValuesAndTheirNumber := fun v =>
  ⟨isolateSample v, planeResult_eq_isolateSample v, fun i => (isolateSample_eq_128_or_eq_zero v i).symm,
    by simp only [isolateSample_eq_128_iff]⟩

theorem sampleResult_promote_promote (v : Sample) {n : PField} (hn : 1 ≤ n.toNat ∧ n.toNat ≤ 8) :
    ((sampleResult (.promote v n)).bind fun y => sampleResult (.promote y n)) =
      some (promoteSample (promoteSample v ⟨n.toNat, hn⟩) ⟨n.toNat, hn⟩) := by
  rw [sampleResult_promote v hn, Option.bind_some, sampleResult_promote _ hn]

/-- Below the full width, PROMOTE twice answers as PROMOTE once exactly where the low `n` bits are zero. -/
theorem sampleResult_promote_promote_eq_iff (v : Sample) {n : PField} (h1 : 1 ≤ n.toNat) (h7 : n.toNat ≤ 7) :
    ((sampleResult (.promote v n)).bind fun y => sampleResult (.promote y n)) = sampleResult (.promote v n) ↔
      2 ^ n.toNat ∣ v.toNat := by
  have hn : 1 ≤ n.toNat ∧ n.toNat ≤ 8 := ⟨h1, h7.trans (by decide)⟩
  rw [sampleResult_promote_promote v hn, sampleResult_promote v hn, Option.some_inj]
  exact promoteSample_promoteSample_eq_self_iff v (n := ⟨n.toNat, hn⟩) h7

/-- Settles O38: below the full width the equation holds for the multiples of `2^n`, of which 1 is none and which are
`2^(8-n)` of the 256 Samples. -/
theorem extractingTwiceIsNotExtractingOnce : Obligations.ExtractingTwiceIsNotExtractingOnce := by
  intro n h1 h8
  have hn : 1 ≤ n.toNat ∧ n.toNat ≤ 8 := ⟨h1, h8⟩
  refine ⟨⟨fun h => ?_, fun h v => ?_⟩, fun h4 v => ?_, fun h7 => ?_⟩
  · by_contra hne
    have hdvd := (sampleResult_promote_promote_eq_iff 1#8 h1 (by omega)).mp (h 1#8)
    exact absurd (Nat.le_of_dvd Nat.one_pos hdvd) (Nat.not_le.mpr (Nat.one_lt_two_pow (by omega)))
  · obtain rfl : n = 8#4 := BitVec.eq_of_toNat_eq h
    rw [sampleResult_promote_eight, Option.bind_some, sampleResult_promote_eight]
  · rw [sampleResult_promote_promote v hn, promoteSample_promoteSample_eq_zero v h4]
  · have hmod (k : Nat) : 2 ^ n.toNat ∣ (BitVec.ofNat 8 k).toNat ↔ 2 ^ n.toNat ∣ k :=
      BitVec.toNat_ofNat k 8 ▸ Nat.dvd_mod_iff (pow_dvd_pow 2 h8)
    simp only [Ne, sampleResult_promote_promote_eq_iff _ h1 h7, hmod]
    rw [count_not, count_two_pow_dvd h8]

/-- Settles O39: the stack 0 and the needle `0x80` are a counterexample for every other width. -/
theorem anotherWidthIsNoErrorAndNoRoundTrip : Obligations.AnotherWidthIsNoErrorAndNoRoundTrip := by
  refine ⟨fun d s n m hn hn' hm hm' => ?_, fun n m hn hn' hm hm' hne => ?_, ?_, ?_⟩
  · exact ⟨_, _, sampleResult_transplant d s ⟨hn, hn'⟩, sampleResult_promote _ ⟨hm, hm'⟩⟩
  · have hwidth : m.toNat ≠ n.toNat := fun hmn => hne (BitVec.eq_of_toNat_eq hmn.symm)
    exact ⟨0x00#8, 0x80#8, _, _, sampleResult_transplant _ _ ⟨hn, hn'⟩, sampleResult_promote _ ⟨hm, hm'⟩,
      promoteSample_transplantSample_ne_of_width_ne hwidth⟩
  · exact sampleResult_transplant 0xF0#8 0xAA#8 (n := 4#4) (by decide)
  · exact sampleResult_promote 0xFA#8 (n := 2#4) (by decide)

/-- Settles O41: each output is a pointwise map of its sources. -/
theorem shapesArePreserved : Obligations.ShapesArePreserved := by
  refine ⟨fun source n h1 h8 => ⟨_, imageResult_extract source ⟨h1, h8⟩, rfl⟩,
    fun stack needle n h1 h8 hs => ⟨_, imageResult_embed hs ⟨h1, h8⟩, rfl, hs⟩,
    fun source => ⟨_, planesResult_bpdecompose source, fun i => ?_⟩⟩
  rw [Fin.getElem_fin, Vector.getElem_ofFn]
  rfl

end Machine

end Sys2Proof
end

section
/-! PROOFS for the errors (60_exceptions.md): the code every operation is answered with, as one table over the
instructions (`errorCode`, R209), from which the exact conditions of each error are read; and the two outcomes of a
request (`responseCode_eq_zero_or_no_result`, R214). -/

namespace Sys2Proof.Machine

/-! ### The table of errors -/

/-- The `ERR` an instruction is answered with, by its operand checks in their order (60_exceptions.md R205, R209). -/
def errorCode (i : Instr) : ErrCode :=
  match i with
  | .promote _ n => if 1 ≤ n.toNat ∧ n.toNat ≤ 8 then 0#2 else 1#2
  | .isolate _ k => if k.toNat < 8 then 0#2 else 2#2
  | .transplant _ _ n => if 1 ≤ n.toNat ∧ n.toNat ≤ 8 then 0#2 else 1#2
  | .decompose _ => 0#2
  | .extract _ n => if 1 ≤ n ∧ n ≤ 8 then 0#2 else 1#2
  | .embed stack needle n =>
    if 1 ≤ n ∧ n ≤ 8 then if stack.shape = needle.shape then 0#2 else 3#2 else 1#2
  | .bpdecompose _ => 0#2

/-- Every operation answers with one response, the same in every state, whose code is the table's. -/
theorem exec_eq_finish_errorCode (i : Instr) : ∃ r, responseCode r = errorCode i ∧ ∀ s, exec i s = finish r s := by
  cases i with
  | promote v n =>
    by_cases hn : 1 ≤ n.toNat ∧ n.toNat ≤ 8
    · exact ⟨_, (if_pos hn).symm, exec_promote_of_legal v hn⟩
    · exact ⟨_, (if_neg hn).symm, exec_promote_of_illegal v hn⟩
  | isolate v k =>
    by_cases hk : k.toNat < 8
    · exact ⟨_, (if_pos hk).symm, exec_isolate_of_legal v hk⟩
    · exact ⟨_, (if_neg hk).symm, exec_isolate_of_illegal v (by omega)⟩
  | transplant dst src n =>
    by_cases hn : 1 ≤ n.toNat ∧ n.toNat ≤ 8
    · exact ⟨_, (if_pos hn).symm, exec_transplant_of_legal dst src hn⟩
    · exact ⟨_, (if_neg hn).symm, exec_transplant_of_illegal dst src hn⟩
  | decompose v => exact ⟨_, rfl, exec_decompose v⟩
  | extract source n =>
    by_cases hn : 1 ≤ n ∧ n ≤ 8
    · exact ⟨_, (if_pos hn).symm, exec_extract_of_legal source hn⟩
    · exact ⟨_, (if_neg hn).symm, exec_extract_of_illegal source hn⟩
  | embed stack needle n =>
    by_cases hn : 1 ≤ n ∧ n ≤ 8
    · by_cases hs : stack.shape = needle.shape
      · exact ⟨_, ((if_pos hn).trans (if_pos hs)).symm, exec_embed_of_legal hs hn⟩
      · exact ⟨_, ((if_pos hn).trans (if_neg hs)).symm, exec_embed_of_shape_ne hs hn⟩
    · exact ⟨_, (if_neg hn).symm, exec_embed_of_illegal stack needle hn⟩
  | bpdecompose source => exact ⟨_, rfl, exec_bpdecompose source⟩

/-- The request for an instruction, presented alone, is answered with the table's code. -/
theorem answer_encode_errorCode (i : Instr) : ∃ r, answer (encode i) = some r ∧ responseCode r = errorCode i := by
  obtain ⟨r, hcode, hr⟩ := exec_eq_finish_errorCode i
  exact ⟨r, answer_of_exec_eq_finish ((decode_encode i).symm ▸ hr), hcode⟩

/-- The guard on `n` raises `ERR = 1`, and only an operation that has it raises that. -/
theorem errorCode_eq_one_iff (i : Instr) :
    errorCode i = 1#2 ↔
      (∃ v n, i = .promote v n ∧ ¬(1 ≤ n.toNat ∧ n.toNat ≤ 8)) ∨
      (∃ dst src n, i = .transplant dst src n ∧ ¬(1 ≤ n.toNat ∧ n.toNat ≤ 8)) ∨
      (∃ source n, i = .extract source n ∧ ¬(1 ≤ n ∧ n ≤ 8)) ∨
      (∃ stack needle n, i = .embed stack needle n ∧ ¬(1 ≤ n ∧ n ≤ 8)) := by
  cases i with
  | promote v n => simp [errorCode]
  | isolate v k => simp [errorCode, ite_eq_iff]
  | transplant dst src n => simp [errorCode]
  | decompose v => simp [errorCode]
  | extract source n => simp [errorCode]
  | embed stack needle n => by_cases hs : stack.shape = needle.shape <;> simp [errorCode, hs]
  | bpdecompose source => simp [errorCode]

/-- The guard on `i` is the only check that raises `ERR = 2`: in every other row no code is 2. -/
theorem errorCode_eq_two_iff (i : Instr) : errorCode i = 2#2 ↔ ∃ v k, i = .isolate v k ∧ 8 ≤ k.toNat := by
  cases i <;> simp [errorCode, ite_eq_iff]

/-- The comparison of the shapes raises `ERR = 3`, and is made only where `n` is legal (60_exceptions.md R205). -/
theorem errorCode_eq_three_iff (i : Instr) :
    errorCode i = 3#2 ↔ ∃ stack needle n, i = .embed stack needle n ∧ (1 ≤ n ∧ n ≤ 8) ∧ stack.shape ≠ needle.shape := by
  cases i <;> simp [errorCode, ite_eq_iff]

/-- Settles O23, by the table of errors. -/
theorem errorTableIsExact : Obligations.ErrorTableIsExact := by
  intro i s
  obtain ⟨r, hcode, hr⟩ := exec_eq_finish_errorCode i
  refine ⟨r, hr s, ?_, ?_, ?_⟩ <;> rw [hcode]
  · exact errorCode_eq_one_iff i
  · exact errorCode_eq_two_iff i
  · exact errorCode_eq_three_iff i

/-- Settles O22: the row of EMBED has three codes, one for each outcome of its two checks. -/
theorem embedChecksWidthThenShapes : Obligations.EmbedChecksWidthThenShapes := by
  intro stack needle n
  obtain ⟨r, hr, hcode⟩ := answer_encode_errorCode (.embed stack needle n)
  refine ⟨r, hr, ?_⟩
  rw [hcode, errorCode]
  by_cases hn : 1 ≤ n ∧ n ≤ 8
  · by_cases hs : stack.shape = needle.shape <;> simp [hn, hs]
  · simp [hn]

/-- Settles O19: each operation that takes a width fails its guard. -/
theorem illegalWidthRaisesInvalidBitWidth : Obligations.IllegalWidthRaisesInvalidBitWidth := by
  refine ⟨fun p hp v dst src s => ?_, fun n hn source stack needle s => ?_, fun n => ⟨rfl, rfl, rfl⟩⟩
  · have hillegal : ¬(1 ≤ p.toNat ∧ p.toNat ≤ 8) := by
      rintro ⟨h1, h8⟩
      obtain rfl | h9 := hp
      · exact absurd h1 (by decide)
      · omega
    exact ⟨exec_promote_of_illegal v hillegal s, exec_transplant_of_illegal dst src hillegal s⟩
  · have hillegal : ¬(1 ≤ n ∧ n ≤ 8) := by omega
    exact ⟨exec_extract_of_illegal source hillegal s, exec_embed_of_illegal stack needle hillegal s⟩

/-- Settles O20: ISOLATE fails its guard, and the rows of DECOMPOSE and BPDECOMPOSE have no error. -/
theorem illegalIndexRaisesInvalidBitIndex : Obligations.IllegalIndexRaisesInvalidBitIndex :=
  ⟨fun _ hp v s => exec_isolate_of_illegal v (by omega) s, fun _ => ⟨rfl, rfl⟩,
    fun v => answer_encode_errorCode (.decompose v), fun source => answer_encode_errorCode (.bpdecompose source)⟩

/-! ### What a request is answered with -/

/-- Settles O25: each step adds the response its own request gets alone, so the error is one more response in the
record and nothing else. -/
theorem anErrorLeavesNothingBehind : Obligations.AnErrorLeavesNothingBehind := by
  intro s bad q rest e hpending hbad
  obtain ⟨rbad, hrbad, hstepbad⟩ := exists_answer_step bad
  obtain ⟨r, hr, hstep⟩ := exists_answer_step q
  obtain rfl : rbad = .error e := Option.some.inj (hrbad.symm.trans hbad)
  refine ⟨_, _, r, hstepbad s _ hpending, rfl, hstep _ rest rfl, hr, ?_⟩
  simp only [List.append_assoc, List.cons_append, List.nil_append]

/-- No error has the code of success (60_exceptions.md R200). -/
theorem errCode_ne_zero (e : Err) : errCode e ≠ 0#2 := by
  cases e <;> simp [errCode]

/-- A response is a success with a result, or an error with none (60_exceptions.md R214). -/
theorem responseCode_eq_zero_or_no_result (r : Response) :
    (responseCode r = 0#2 ∧ ((resultBus? r).isSome ∨ (outImage? r).isSome ∨ (outPlanes? r).isSome)) ∨
      (responseCode r ≠ 0#2 ∧ resultBus? r = none ∧ outImage? r = none ∧ outPlanes? r = none) := by
  cases r with
  | result bus => exact .inl ⟨rfl, .inl rfl⟩
  | image out => exact .inl ⟨rfl, .inr (.inl rfl)⟩
  | planes outs => exact .inl ⟨rfl, .inr (.inr rfl)⟩
  | error e => exact .inr ⟨errCode_ne_zero e, rfl, rfl, rfl⟩

/-- Settles O26: a step goes on with or without a request pending, and any response is one of the two outcomes. -/
theorem everyRequestHasOneOfTwoOutcomes : Obligations.EveryRequestHasOneOfTwoOutcomes := by
  refine ⟨fun s => ?_, fun s q rest h => ?_⟩
  · cases hp : s.pending with
    | nil => exact ⟨s, step_of_no_pending hp⟩
    | cons q rest => exact ⟨_, step_of_pending_eq_expected hp⟩
  · exact ⟨_, step_of_pending_eq_expected h, responseCode_eq_zero_or_no_result _⟩

end Sys2Proof.Machine
end

section
/-! PROOFS for reset and the host's duties (70_reset_and_hazards.md): the table of errors has code 0 exactly in the rows
of well-formed instructions, and the first request after reset is one more pending request. -/

namespace Sys2Proof.Machine

/-- The host's duties are the checks of the table of errors: an instruction that keeps them all is the one with code 0
(70_reset_and_hazards.md R235, R240). -/
theorem wellFormed_iff_errorCode_eq_zero (i : Instr) : WellFormed i ↔ errorCode i = 0#2 := by
  cases i with
  | promote v n => simp [WellFormed, wellFormed, legalWidth_iff, errorCode]
  | isolate v k => simp [WellFormed, wellFormed, legalIndex_iff, errorCode, Nat.lt_succ_iff]
  | transplant dst src n => simp [WellFormed, wellFormed, legalWidth_iff, errorCode]
  | decompose v => simp [WellFormed, wellFormed, errorCode]
  | extract source n => simp [WellFormed, wellFormed, legalWidth_iff, errorCode]
  | embed stack needle n =>
    by_cases hs : stack.shape = needle.shape
    · simp [WellFormed, wellFormed, legalWidth_iff, errorCode, hs]
    · simp [WellFormed, wellFormed, errorCode, hs, ite_eq_iff]
  | bpdecompose source => simp [WellFormed, wellFormed, errorCode]

/-- Settles O24: the response has the table's code. -/
theorem wellFormedExactlyWhenNoError : Obligations.WellFormedExactlyWhenNoError := by
  intro i s
  obtain ⟨r, hcode, hr⟩ := exec_eq_finish_errorCode i
  exact ⟨r, hr s, hcode ▸ wellFormed_iff_errorCode_eq_zero i⟩

/-- Settles O51: the request is the oldest one in both states, and each step adds the response to it alone. -/
theorem firstRequestAfterResetIsAnsweredAsAnyOther : Obligations.FirstRequestAfterResetIsAnsweredAsAnyOther := by
  intro q s rest hs
  obtain ⟨r, -, hstep⟩ := exists_answer_step q
  exact ⟨r, _, _, hstep (State.reset.present q) [] rfl, rfl, rfl, hstep s rest hs, rfl⟩

/-- The reset state's transcript holds no request, so no response is missing (log entry 2). -/
theorem inv_reset : Safety.Inv State.reset := by
  rw [Safety.Inv, State.reset_accepted, State.reset_responses, List.map_nil]

/-- Settles O54. -/
theorem resetTranscriptIsCorrect : Obligations.ResetTranscriptIsCorrect :=
  ⟨inv_reset, State.reset_pending, State.reset_responses⟩

end Sys2Proof.Machine
end
